-- ==== Sys2Proof/Word.lean ====
section
/-! DEFINITION. The word types of GF256U: field elements, command words and register numbers. -/

namespace Sys2Proof

/-- A field element, a memory entry or an immediate: 8 bits, unsigned (40_field.md R100, 00_scope.md R7 FIELD_BITS). -/
abbrev Byte := BitVec 8

/-- A command word or a host register: 32 bits (00_scope.md R7 CMD_BITS and PORT_BITS). -/
abbrev Word := BitVec 32

/-- A register number 0..15 (30_encoding.md R73); NREG = 16 (00_scope.md R7). -/
abbrev RegIdx := Fin 16

end Sys2Proof
end

