-- ==== Sys2Proof/Syntax.lean ====
section
/-! DEFINITION. The command set: one constructor per row of spec/opcode_table.json (30_encoding.md R74). -/

namespace Sys2Proof

/-- A GF256U command. Operands stand in the order of the assembly column of 30_encoding.md R74. A register operand is a number
0..15 and an immediate a byte, so every value of this type is a command (R73). -/
inductive Instr where
  /-- NOP (44_control.md R230). -/
  | nop
  /-- INVB: build the inverse table now (41_inverse_cache.md R158). -/
  | invb
  /-- GADD rd, rs1, rs2 (40_field.md R110). -/
  | gadd (rd rs1 rs2 : RegIdx)
  /-- GSUB rd, rs1, rs2 (40_field.md R111). -/
  | gsub (rd rs1 rs2 : RegIdx)
  /-- GMUL rd, rs1, rs2 (40_field.md R112). -/
  | gmul (rd rs1 rs2 : RegIdx)
  /-- GDIV rd, rs1, rs2 (40_field.md R113). -/
  | gdiv (rd rs1 rs2 : RegIdx)
  /-- GINV rd, rs1 (40_field.md R114). -/
  | ginv (rd rs1 : RegIdx)
  /-- GADDI rd, rs1, imm (40_field.md R115). -/
  | gaddi (rd rs1 : RegIdx) (imm : Byte)
  /-- GMULI rd, rs1, imm (40_field.md R116). -/
  | gmuli (rd rs1 : RegIdx) (imm : Byte)
  /-- GLI rd, imm (40_field.md R117). -/
  | gli (rd : RegIdx) (imm : Byte)
  /-- PCSET idx, val (42_polynomial.md R174). -/
  | pcset (idx val : Byte)
  /-- PCST idx, rs1 (42_polynomial.md R175). -/
  | pcst (idx : Byte) (rs1 : RegIdx)
  /-- PCLD rd, idx (42_polynomial.md R176). -/
  | pcld (rd : RegIdx) (idx : Byte)
  /-- PEVAL rd, rs1, len (42_polynomial.md R177). -/
  | peval (rd rs1 : RegIdx) (len : Byte)
  /-- PEVALI rd, x, len (42_polynomial.md R178). -/
  | pevali (rd : RegIdx) (pt len : Byte)
  /-- LPSET idx, x, y (43_lagrange.md R205). -/
  | lpset (idx px py : Byte)
  /-- LPST idx, rs1, rs2: rs1 gives x, rs2 gives y (43_lagrange.md R206). -/
  | lpst (idx : Byte) (rs1 rs2 : RegIdx)
  /-- LPLDX rd, idx (43_lagrange.md R207). -/
  | lpldx (rd : RegIdx) (idx : Byte)
  /-- LPLDY rd, idx (43_lagrange.md R208). -/
  | lpldy (rd : RegIdx) (idx : Byte)
  /-- LAGR rd, n (43_lagrange.md R209). -/
  | lagr (rd : RegIdx) (n : Byte)
  deriving DecidableEq, Repr

end Sys2Proof
end

