-- ==== Sys2Proof/WellFormed.lean ====
section
/-! DEFINITION. The range checks on operands (30_encoding.md R73, R81, R83). The fields of Instr are typed to their widths, so
every Instr passes; the checks bite where operands are still plain numbers, in the assembler. -/

namespace Sys2Proof

/-- A register number is 0..15 (30_encoding.md R73). -/
def regInRange (n : Nat) : Bool := decide (n < 16)

/-- An immediate operand is 0..255; outside it is an assembly error, never truncated (30_encoding.md R81). -/
def byteInRange (n : Nat) : Bool := decide (n < 256)

/-- The operand of `.word` is a 32-bit value (30_encoding.md R83). -/
def wordInRange (n : Nat) : Bool := decide (n < 4294967296)

/-- Every operand number of a command fits its field (30_encoding.md R73). -/
def Instr.wellFormed : Instr → Bool
  | .nop => true
  | .invb => true
  | .gadd rd rs1 rs2 => regInRange rd && regInRange rs1 && regInRange rs2
  | .gsub rd rs1 rs2 => regInRange rd && regInRange rs1 && regInRange rs2
  | .gmul rd rs1 rs2 => regInRange rd && regInRange rs1 && regInRange rs2
  | .gdiv rd rs1 rs2 => regInRange rd && regInRange rs1 && regInRange rs2
  | .ginv rd rs1 => regInRange rd && regInRange rs1
  | .gaddi rd rs1 imm => regInRange rd && regInRange rs1 && byteInRange imm.toNat
  | .gmuli rd rs1 imm => regInRange rd && regInRange rs1 && byteInRange imm.toNat
  | .gli rd imm => regInRange rd && byteInRange imm.toNat
  | .pcset idx val => byteInRange idx.toNat && byteInRange val.toNat
  | .pcst idx rs1 => byteInRange idx.toNat && regInRange rs1
  | .pcld rd idx => regInRange rd && byteInRange idx.toNat
  | .peval rd rs1 len => regInRange rd && regInRange rs1 && byteInRange len.toNat
  | .pevali rd pt len => regInRange rd && byteInRange pt.toNat && byteInRange len.toNat
  | .lpset idx px py => byteInRange idx.toNat && byteInRange px.toNat && byteInRange py.toNat
  | .lpst idx rs1 rs2 => byteInRange idx.toNat && regInRange rs1 && regInRange rs2
  | .lpldx rd idx => regInRange rd && byteInRange idx.toNat
  | .lpldy rd idx => regInRange rd && byteInRange idx.toNat
  | .lagr rd n => regInRange rd && byteInRange n.toNat

end Sys2Proof
end

