-- ==== Sys2Proof/Decode.lean ====
section
/-! DEFINITION. Decoding a command word (30_encoding.md R70 to R79), total and rejecting by name, and encoding a command, both
written from the field, format and opcode tables R71, R72 and R74. -/

namespace Sys2Proof

/-! ### The opcode map -/

/-- The ten command formats (30_encoding.md R72). -/
inductive Format where
  | N | R | U | I | L | E | S | P | MS | MP
  deriving DecidableEq, Repr

/-- The mask of a format: 1 in every `op` bit and every must-be-zero bit (30_encoding.md R72). -/
def Format.mask : Format → Word
  | .N => 0xFFFFFFFF#32
  | .R => 0xFF000FFF#32
  | .U => 0xFF00FFFF#32
  | .I => 0xFF00FF00#32
  | .L => 0xFF0FFF00#32
  | .E => 0xFF0F0000#32
  | .S => 0xFF00FF00#32
  | .P => 0xFF000000#32
  | .MS => 0xFFF0FF00#32
  | .MP => 0xFFF00F00#32

/-- The rows of the opcode map (30_encoding.md R74). -/
inductive Opcode where
  | nop | invb | gadd | gsub | gmul | gdiv | ginv | gaddi | gmuli | gli
  | pcset | pcst | pcld | peval | pevali | lpset | lpst | lpldx | lpldy | lagr
  deriving DecidableEq, Repr

/-- The rows in the order of the opcode map (30_encoding.md R74). -/
def Opcode.all : List Opcode :=
  [.nop, .invb, .gadd, .gsub, .gmul, .gdiv, .ginv, .gaddi, .gmuli, .gli,
   .pcset, .pcst, .pcld, .peval, .pevali, .lpset, .lpst, .lpldx, .lpldy, .lagr]

/-- The `op` column of the opcode map (30_encoding.md R74). -/
def Opcode.code : Opcode → Byte
  | .nop => 0x01#8
  | .invb => 0x02#8
  | .gadd => 0x10#8
  | .gsub => 0x11#8
  | .gmul => 0x12#8
  | .gdiv => 0x13#8
  | .ginv => 0x14#8
  | .gaddi => 0x18#8
  | .gmuli => 0x1A#8
  | .gli => 0x1C#8
  | .pcset => 0x20#8
  | .pcst => 0x21#8
  | .pcld => 0x22#8
  | .peval => 0x28#8
  | .pevali => 0x29#8
  | .lpset => 0x30#8
  | .lpst => 0x31#8
  | .lpldx => 0x32#8
  | .lpldy => 0x33#8
  | .lagr => 0x38#8

/-- The `format` column of the opcode map (30_encoding.md R74). -/
def Opcode.format : Opcode → Format
  | .nop => .N
  | .invb => .N
  | .gadd => .R
  | .gsub => .R
  | .gmul => .R
  | .gdiv => .R
  | .ginv => .U
  | .gaddi => .I
  | .gmuli => .I
  | .gli => .L
  | .pcset => .S
  | .pcst => .MS
  | .pcld => .L
  | .peval => .I
  | .pevali => .E
  | .lpset => .P
  | .lpst => .MP
  | .lpldx => .L
  | .lpldy => .L
  | .lagr => .L

/-- The `mask` column of the opcode map (30_encoding.md R74). -/
def Opcode.mask (o : Opcode) : Word := o.format.mask

/-- The `match` column of the opcode map: the opcode in bits 31:24 over zeros (30_encoding.md R74). -/
def Opcode.pattern (o : Opcode) : Word := o.code ++ 0#24

/-- The row whose `op` is the given byte; none for an unassigned opcode (30_encoding.md R76(a)). -/
def Opcode.ofCode (b : Byte) : Option Opcode := Opcode.all.find? fun o => o.code == b

/-! ### The fields -/

/-- `op`, bits 31:24 (30_encoding.md R71). -/
def fieldOp (w : Word) : Byte := w.extractLsb' 24 8
/-- `rd`, bits 23:20 (30_encoding.md R71). -/
def fieldRd (w : Word) : RegIdx := (w.extractLsb' 20 4).toFin
/-- `rs1`, bits 19:16 (30_encoding.md R71). -/
def fieldRs1 (w : Word) : RegIdx := (w.extractLsb' 16 4).toFin
/-- `rs2`, bits 15:12 (30_encoding.md R71). -/
def fieldRs2 (w : Word) : RegIdx := (w.extractLsb' 12 4).toFin
/-- `itop`, bits 23:16 (30_encoding.md R71). -/
def fieldItop (w : Word) : Byte := w.extractLsb' 16 8
/-- `ihi`, bits 15:8 (30_encoding.md R71). -/
def fieldIhi (w : Word) : Byte := w.extractLsb' 8 8
/-- `imm`, bits 7:0 (30_encoding.md R71). -/
def fieldImm (w : Word) : Byte := w.extractLsb' 0 8

/-! ### Decoding -/

/-- Why a word is no command (30_encoding.md R76). -/
inductive IllegalReason where
  /-- Its opcode is in no row of the opcode map (R76(a)). -/
  | unassignedOpcode
  /-- A must-be-zero bit of its row's format is 1 (R76(b)). -/
  | mustBeZero
  deriving DecidableEq, Repr

/-- What the decode check of 30_encoding.md R78 finds in a word. -/
inductive Decoded where
  /-- A command. -/
  | command (i : Instr)
  /-- An illegal word, which raises ILLEGAL_CMD. -/
  | illegal (r : IllegalReason)
  deriving DecidableEq, Repr

/-- The operands of a row, placed as the assembly column of 30_encoding.md R74 says. -/
def Opcode.operands (o : Opcode) (w : Word) : Instr :=
  match o with
  | .nop => .nop
  | .invb => .invb
  | .gadd => .gadd (fieldRd w) (fieldRs1 w) (fieldRs2 w)
  | .gsub => .gsub (fieldRd w) (fieldRs1 w) (fieldRs2 w)
  | .gmul => .gmul (fieldRd w) (fieldRs1 w) (fieldRs2 w)
  | .gdiv => .gdiv (fieldRd w) (fieldRs1 w) (fieldRs2 w)
  | .ginv => .ginv (fieldRd w) (fieldRs1 w)
  | .gaddi => .gaddi (fieldRd w) (fieldRs1 w) (fieldImm w)
  | .gmuli => .gmuli (fieldRd w) (fieldRs1 w) (fieldImm w)
  | .gli => .gli (fieldRd w) (fieldImm w)
  | .pcset => .pcset (fieldImm w) (fieldItop w)
  | .pcst => .pcst (fieldImm w) (fieldRs1 w)
  | .pcld => .pcld (fieldRd w) (fieldImm w)
  | .peval => .peval (fieldRd w) (fieldRs1 w) (fieldImm w)
  | .pevali => .pevali (fieldRd w) (fieldIhi w) (fieldImm w)
  | .lpset => .lpset (fieldImm w) (fieldItop w) (fieldIhi w)
  | .lpst => .lpst (fieldImm w) (fieldRs1 w) (fieldRs2 w)
  | .lpldx => .lpldx (fieldRd w) (fieldImm w)
  | .lpldy => .lpldy (fieldRd w) (fieldImm w)
  | .lagr => .lagr (fieldRd w) (fieldImm w)

/-- The decode check of 30_encoding.md R78: the row of the word's opcode, then its mask and match (R74, R76). -/
def decode (w : Word) : Decoded :=
  match Opcode.ofCode (fieldOp w) with
  | none => .illegal .unassignedOpcode
  | some o => if w &&& o.mask = o.pattern then .command (o.operands w) else .illegal .mustBeZero

/-- A 32-bit register value from the four bytes a byte-addressed host lays at offsets +0 to +3: little-endian
(20_memory.md R54). -/
def wordOfLanes (b0 b1 b2 b3 : Byte) : Word := b3 ++ b2 ++ b1 ++ b0

/-- Decoding four byte lanes; no other number of bytes is a command (30_encoding.md R70). -/
def decodeBytes : List Byte → Option Decoded
  | [b0, b1, b2, b3] => some (decode (wordOfLanes b0 b1 b2 b3))
  | _ => none

/-- The command word of the low `nbits` bits of `w`, the bits above being 0. -/
def tableWord (nbits w : Nat) : Word := BitVec.ofNat 32 (w % 2 ^ nbits)

/-- The command the decoder reads from a word numbered as spec/opcode_table.json numbers it. -/
def decodeTableWord (nbits w : Nat) : Option Instr :=
  match decode (tableWord nbits w) with
  | .command i => some i
  | .illegal _ => none

/-! ### Encoding -/

/-- The row of a command. -/
def Instr.opcode : Instr → Opcode
  | .nop => .nop
  | .invb => .invb
  | .gadd .. => .gadd
  | .gsub .. => .gsub
  | .gmul .. => .gmul
  | .gdiv .. => .gdiv
  | .ginv .. => .ginv
  | .gaddi .. => .gaddi
  | .gmuli .. => .gmuli
  | .gli .. => .gli
  | .pcset .. => .pcset
  | .pcst .. => .pcst
  | .pcld .. => .pcld
  | .peval .. => .peval
  | .pevali .. => .pevali
  | .lpset .. => .lpset
  | .lpst .. => .lpst
  | .lpldx .. => .lpldx
  | .lpldy .. => .lpldy
  | .lagr .. => .lagr

/-- A register number as its 4-bit field (30_encoding.md R73). -/
def regBits (r : RegIdx) : BitVec 4 := BitVec.ofFin r

/-- Format R (30_encoding.md R72). -/
def layoutR (o : Opcode) (rd rs1 rs2 : RegIdx) : Word :=
  o.code ++ regBits rd ++ regBits rs1 ++ regBits rs2 ++ 0#12
/-- Format U (30_encoding.md R72). -/
def layoutU (o : Opcode) (rd rs1 : RegIdx) : Word := o.code ++ regBits rd ++ regBits rs1 ++ 0#16
/-- Format I (30_encoding.md R72). -/
def layoutI (o : Opcode) (rd rs1 : RegIdx) (imm : Byte) : Word :=
  o.code ++ regBits rd ++ regBits rs1 ++ 0#8 ++ imm
/-- Format L (30_encoding.md R72). -/
def layoutL (o : Opcode) (rd : RegIdx) (imm : Byte) : Word := o.code ++ regBits rd ++ 0#12 ++ imm
/-- Format E (30_encoding.md R72). -/
def layoutE (o : Opcode) (rd : RegIdx) (ihi imm : Byte) : Word := o.code ++ regBits rd ++ 0#4 ++ ihi ++ imm
/-- Format S (30_encoding.md R72). -/
def layoutS (o : Opcode) (itop imm : Byte) : Word := o.code ++ itop ++ 0#8 ++ imm
/-- Format P (30_encoding.md R72). -/
def layoutP (o : Opcode) (itop ihi imm : Byte) : Word := o.code ++ itop ++ ihi ++ imm
/-- Format MS (30_encoding.md R72). -/
def layoutMS (o : Opcode) (rs1 : RegIdx) (imm : Byte) : Word := o.code ++ 0#4 ++ regBits rs1 ++ 0#8 ++ imm
/-- Format MP (30_encoding.md R72). -/
def layoutMP (o : Opcode) (rs1 rs2 : RegIdx) (imm : Byte) : Word :=
  o.code ++ 0#4 ++ regBits rs1 ++ regBits rs2 ++ 0#4 ++ imm

/-- The word of a command: each operand in the field named in 30_encoding.md R74, every must-be-zero bit 0 (R82). -/
def encode : Instr → Word
  | .nop => Opcode.nop.pattern
  | .invb => Opcode.invb.pattern
  | .gadd rd rs1 rs2 => layoutR .gadd rd rs1 rs2
  | .gsub rd rs1 rs2 => layoutR .gsub rd rs1 rs2
  | .gmul rd rs1 rs2 => layoutR .gmul rd rs1 rs2
  | .gdiv rd rs1 rs2 => layoutR .gdiv rd rs1 rs2
  | .ginv rd rs1 => layoutU .ginv rd rs1
  | .gaddi rd rs1 imm => layoutI .gaddi rd rs1 imm
  | .gmuli rd rs1 imm => layoutI .gmuli rd rs1 imm
  | .gli rd imm => layoutL .gli rd imm
  | .pcset idx val => layoutS .pcset val idx
  | .pcst idx rs1 => layoutMS .pcst rs1 idx
  | .pcld rd idx => layoutL .pcld rd idx
  | .peval rd rs1 len => layoutI .peval rd rs1 len
  | .pevali rd pt len => layoutE .pevali rd pt len
  | .lpset idx px py => layoutP .lpset px py idx
  | .lpst idx rs1 rs2 => layoutMP .lpst rs1 rs2 idx
  | .lpldx rd idx => layoutL .lpldx rd idx
  | .lpldy rd idx => layoutL .lpldy rd idx
  | .lagr rd n => layoutL .lagr rd n

end Sys2Proof
end

