-- ==== Sys2Proof/Config.lean ====
section
/-! DEFINITION. What is fixed for this hardware (00_scope.md R7), the constant host registers (10_state.md R32, R33), the host
register map (20_memory.md R51), and the one open parameter that names a place, BASE. -/

namespace Sys2Proof

/-- REDPOLY = x^8 + x^4 + x^3 + x + 1 (00_scope.md R7, 40_field.md R104; the spec marks the value as general knowledge, D7; log 11). -/
def Config.redpoly : BitVec 9 := 0x11B#9

/-- REDPOLY[7:0], the constant XORed in the multiply loop (40_field.md R104). -/
def Config.reduction : Byte := Config.redpoly.setWidth 8

/-- NREG, the number of general registers (00_scope.md R7). -/
def Config.nreg : Nat := 16

/-- COEF_DEPTH and PT_DEPTH, the entries of each internal memory (00_scope.md R7). -/
def Config.memDepth : Nat := 256

/-- MAX_LEN, the largest polynomial length or point count of one command (00_scope.md R7). -/
def Config.maxLen : Nat := 255

/-- WINDOW, the size of the host register window in bytes (00_scope.md R7). -/
def Config.windowSize : Nat := 0x100

/-- The ID register: 0x4746 ("GF"), major version 1, minor version 0 (10_state.md R32). -/
def Config.idWord : Word := 0x4746#16 ++ 0x01#8 ++ 0x00#8

/-- The PARAM register: reserved 0, MAX_LEN, NREG, REDPOLY[7:0] (10_state.md R33). -/
def Config.paramWord : Word :=
  0x00#8 ++ BitVec.ofNat 8 Config.maxLen ++ BitVec.ofNat 8 Config.nreg ++ Config.reduction

/-- The open parameter BASE, counted in windows of 0x100 bytes: the platform fixes it and no proof can see its value
(20_memory.md R51, D20; log 7). -/
opaque Config.baseBlock : Nat

/-- BASE, the window's byte address in the host's address space: a multiple of 0x100 (20_memory.md R51). -/
def Config.base : Nat := Config.windowSize * Config.baseBlock

end Sys2Proof
end

