-- ==== Sys2Proof/Machine/Field.lean ====
section
/-! DEFINITION. The field functions of GF(256) (40_field.md R100 to R108) and the scan of the reference inverse-table build
(41_inverse_cache.md R153). -/

namespace Sys2Proof.Machine

open Sys2Proof

/-- Addition: bitwise exclusive-or (40_field.md R101). -/
def gadd (a b : Byte) : Byte := a ^^^ b

/-- Subtraction, identical to addition (40_field.md R102). -/
def gsub (a b : Byte) : Byte := a ^^^ b

/-- `(a << 1) & 0xFF`, then the reduction constant when bit 7 was shifted out (40_field.md R103). -/
def xtime (a : Byte) : Byte :=
  if a.getLsbD 7 then (a <<< 1) ^^^ Config.reduction else a <<< 1

/-- The multiply loop of 40_field.md R103 with `n` iterations to go, running values `a`, `b` and accumulator `p`. -/
def gmulLoop : Nat → Byte → Byte → Byte → Byte
  | 0, _, _, p => p
  | n + 1, a, b, p => gmulLoop n (xtime a) (b >>> 1) (if b.getLsbD 0 then p ^^^ a else p)

/-- Multiplication: eight iterations from accumulator 0 (40_field.md R103). -/
def gmul (a b : Byte) : Byte := gmulLoop 8 a b 0#8

/-- The inner loop of the build, with `n` candidates to go from `b` on: the first b with gmul(a, b) = 1
(41_inverse_cache.md R153). Where there is none (only for a = 0) it answers 0, which nothing reads (log 9). -/
def scanInverse (a : Byte) : Nat → Byte → Byte
  | 0, _ => 0#8
  | n + 1, b => if gmul a b = 1#8 then b else scanInverse a n (b + 1#8)

/-- Inversion of a nonzero element (40_field.md R106): what the build records for it. -/
def ginv (a : Byte) : Byte := scanInverse a 255 1#8

/-- Division by a nonzero element (40_field.md R107). -/
def gdiv (a b : Byte) : Byte := gmul a (ginv b)

end Sys2Proof.Machine
end

