-- ==== Sys2Proof/Machine/State.lean ====
section
/-! DEFINITION. The state of GF256U (10_state.md R20) as plain data, what the outside world presents to it, the reasons a step
can stop, and the state after reset (70_reset_and_hazards.md R400). -/

namespace Sys2Proof.Machine

open Sys2Proof

/-- One internal memory: the entries whose value is not what an unlisted entry reads as, by rising index (20_memory.md R50). -/
abbrev Memory := List Host.Cell

/-- The error codes a command completes with (10_state.md R26). -/
inductive ErrorCode where
  /-- OK, code 0x0. -/
  | ok
  /-- DIV_BY_ZERO, code 0x1 (60_exceptions.md R301). -/
  | divByZero
  /-- ILLEGAL_CMD, code 0x2 (60_exceptions.md R302). -/
  | illegalCmd
  deriving DecidableEq, Repr

/-- The command in progress, from its acceptance to its completion (00_scope.md R12). -/
structure InProgress where
  /-- `cmd`, the command word being executed (00_scope.md R10). -/
  word : Word
  /-- INV_BUILDING: the inverse-table build is running inside the command (10_state.md R30). -/
  building : Bool
  deriving DecidableEq, Repr

/-- The width of a host access: 1, 2 or 4 bytes (20_memory.md R52, R53). -/
inductive Width where
  | byte | half | word
  deriving DecidableEq, Repr

/-- What a host access does. A write presents a value on the 32-bit bus (20_memory.md R52). -/
inductive AccessOp where
  | read
  | write (v : Word)
  deriving DecidableEq, Repr

/-- A host access that reaches the window, at a byte offset from BASE (20_memory.md R51; log 7). -/
structure HostAccess where
  width : Width
  offset : Byte
  op : AccessOp
  deriving DecidableEq, Repr

/-- An instant of the command in progress that the order of events can place before or after a host access
(70_reset_and_hazards.md R407; log 1). -/
inductive Progress where
  /-- The inverse-table build begins, if the command runs one. -/
  | buildStarts
  /-- The inverse-table build ends, if it is running. -/
  | buildEnds
  /-- The command completes, with whatever of it is still to do. -/
  | completes
  deriving DecidableEq, Repr

/-- What happens next at the block: the port receives an access, the command in progress advances, or the power-on reset input
is asserted and released (60_exceptions.md R316, 70_reset_and_hazards.md R401; log 1, log 8). -/
inductive Input where
  | access (a : HostAccess)
  | progress (p : Progress)
  | powerOnReset
  deriving DecidableEq, Repr

/-- The port's answer to an access it performed. -/
inductive Reply where
  /-- A legal read returns the 32-bit register value (20_memory.md R52). -/
  | data (v : Word)
  /-- A legal write has been performed. -/
  | written
  /-- An illegal access gets a bus error response (20_memory.md R53). -/
  | busError
  deriving DecidableEq, Repr

/-- The state of the block (10_state.md R20), the access its port is holding (70_reset_and_hazards.md R402), and the model's
own record of what is still to happen to it and what its port has answered (log 1, log 6). -/
structure State where
  /-- x[0..15] (10_state.md R21). -/
  x : Vector Byte 16
  /-- COEF[0..255] (10_state.md R34). -/
  coef : Memory
  /-- PX[0..255] (10_state.md R35). -/
  px : Memory
  /-- PY[0..255] (10_state.md R35). -/
  py : Memory
  /-- INV[1..255], hidden (10_state.md R36). -/
  inv : Memory
  /-- INV_VALID (10_state.md R29). -/
  invValid : Bool
  /-- RESULT (10_state.md R24). -/
  result : Word
  /-- LAST_ERR (10_state.md R26). -/
  lastErr : BitVec 4
  /-- STICKY_ERR (10_state.md R27). -/
  stickyErr : Bool
  /-- The command in progress; BUSY is 1 exactly when there is one (10_state.md R28). -/
  active : Option InProgress
  /-- The access the port is holding, not yet performed (70_reset_and_hazards.md R402, R405, R406; log 5). -/
  held : Option HostAccess
  /-- What is still to happen at the block, next first: the model's own field (log 1). -/
  inputs : List Input
  /-- What the port has answered, oldest first: the model's own field (log 6). -/
  replies : List Reply
  deriving DecidableEq, Repr

/-- GF256U has no fault: "No behaviour of the block is `stuck`: every command and every access has a defined outcome"
(93_implementation_defined.md; 60_exceptions.md R300). Nothing raises one. -/
inductive Fault where
  deriving DecidableEq, Repr

/-- Why a step gives no meaning. -/
inductive Refusal where
  /-- Raised by exec's arm of a command that has no meaning yet, by name; safe. No arm of this model raises it. -/
  | notModelled (mnemonic : String)
  deriving DecidableEq, Repr

/-- The block right after reset (70_reset_and_hazards.md R400). INV's content there is the model's choice (log 3); no input has
been presented and nothing answered. -/
def State.reset : State where
  x := Vector.replicate 16 0#8
  coef := []
  px := []
  py := []
  inv := []
  invValid := false
  result := 0#32
  lastErr := 0#4
  stickyErr := false
  active := none
  held := none
  inputs := []
  replies := []

end Sys2Proof.Machine
end

