-- ==== Sys2Proof/Machine/Flags.lean ====
section
/-! DEFINITION. The error fields and the STATUS register (10_state.md R25 to R31). "No command has other flags" (40_field.md). -/

namespace Sys2Proof.Machine

open Sys2Proof

/-- The 4-bit code of an outcome (10_state.md R26). -/
def ErrorCode.code : ErrorCode → BitVec 4
  | .ok => 0x0#4
  | .divByZero => 0x1#4
  | .illegalCmd => 0x2#4

/-- STICKY_ERR after a completion: set by an error, left unchanged by OK (10_state.md R27). -/
def stickyAfter (sticky : Bool) : ErrorCode → Bool
  | .ok => sticky
  | .divByZero => true
  | .illegalCmd => true

/-- BUSY (10_state.md R28). -/
def State.busy (s : State) : Bool := s.active.isSome

/-- INV_BUILDING (10_state.md R30). -/
def State.invBuilding (s : State) : Bool :=
  match s.active with
  | none => false
  | some c => c.building

/-- STATUS as a read returns it: LAST_ERR in bits 11:8, STICKY_ERR 3, INV_BUILDING 2, INV_VALID 1, BUSY 0, the rest 0
(10_state.md R25). -/
def State.status (s : State) : Word :=
  0#20 ++ s.lastErr ++ 0#4 ++ BitVec.ofBool s.stickyErr ++ BitVec.ofBool s.invBuilding
    ++ BitVec.ofBool s.invValid ++ BitVec.ofBool s.busy

/-- CTRL.CLRERR: both error fields cleared (10_state.md R31). -/
def State.clearErrors (s : State) : State :=
  { s with lastErr := ErrorCode.code .ok, stickyErr := false }

end Sys2Proof.Machine
end

