-- ==== Sys2Proof/Machine/Ops.lean ====
section
/-! DEFINITION. The operations every command is made of: reading and writing an internal memory (20_memory.md R56, R64), a
register and RESULT (00_scope.md R10), the inverse-table build (41_inverse_cache.md R153), completion of a command with its
outcome (60_exceptions.md R305), and the two resets (70_reset_and_hazards.md R400 to R402). -/

namespace Sys2Proof.Machine

open Sys2Proof

/-! ### Internal memories -/

/-- What an entry the list does not hold reads as: the reset value 0x00 (10_state.md R34, R35). -/
def Memory.unlisted : Byte := 0#8

/-- Read one entry (20_memory.md R56). -/
def Memory.read : Memory → Nat → Byte
  | [], _ => Memory.unlisted
  | (k, v) :: rest, a => if a = k then v else Memory.read rest a

/-- Write one entry, keeping the list rising and free of entries that read as unlisted (20_memory.md R56). -/
def Memory.write : Memory → Nat → Byte → Memory
  | [], a, v => if v = Memory.unlisted then [] else [(a, v)]
  | (k, w) :: rest, a, v =>
    if a < k then (if v = Memory.unlisted then (k, w) :: rest else (a, v) :: (k, w) :: rest)
    else if a = k then (if v = Memory.unlisted then rest else (a, v) :: rest)
    else (k, w) :: Memory.write rest a v

/-- The entries rise strictly from `lo`, none reads as unlisted, and each index is one of the memory's 256. -/
def Memory.risingFrom : Nat → Memory → Bool
  | _, [] => true
  | lo, (k, v) :: rest =>
    decide (lo ≤ k) && decide (k < Config.memDepth) && decide (v ≠ Memory.unlisted) && Memory.risingFrom (k + 1) rest

/-- The canonical form of a memory: equal memories are equal lists. -/
def Memory.wf (m : Memory) : Bool := Memory.risingFrom 0 m

/-! ### Registers and RESULT -/

/-- `x[r]` (00_scope.md R10, 10_state.md R21). -/
def State.reg (s : State) (r : RegIdx) : Byte := s.x.get r

/-- `x[r] <- v`; no register is hardwired (00_scope.md R10, 10_state.md R21). -/
def State.setReg (s : State) (r : RegIdx) (v : Byte) : State := { s with x := s.x.set r.val v r.isLt }

/-- `RESULT <- v`, zero-extended to 32 bits (00_scope.md R10). -/
def State.setResult (s : State) (v : Byte) : State := { s with result := v.setWidth 32 }

/-- `x[rd] <- v; RESULT <- v`, the two writes of every command that writes RESULT (10_state.md R24). -/
def State.writeBack (s : State) (rd : RegIdx) (v : Byte) : State := (s.setReg rd v).setResult v

/-- `COEF[i] <- v` (00_scope.md R10). -/
def State.setCoef (s : State) (i : Byte) (v : Byte) : State := { s with coef := s.coef.write i.toNat v }

/-- `PX[i] <- vx; PY[i] <- vy`, the two writes of a point store (43_lagrange.md R205, R206). -/
def State.setPoint (s : State) (i : Byte) (vx vy : Byte) : State :=
  { s with px := s.px.write i.toNat vx, py := s.py.write i.toNat vy }

/-! ### The inverse table -/

/-- The built table: entry a for every a in 1..255, what the reference scan records (41_inverse_cache.md R150, R153). -/
def builtTable : Memory := (List.range 255).map fun k => (k + 1, ginv (BitVec.ofNat 8 (k + 1)))

/-- `INV[a]` for a nonzero a (00_scope.md R10, 41_inverse_cache.md R155). -/
def State.inverse (s : State) (a : Byte) : Byte := s.inv.read a.toNat

/-- The end of the build: the table is filled, INV_BUILDING 0, INV_VALID 1 (41_inverse_cache.md R153; log 4). -/
def State.build (s : State) : State :=
  { s with inv := builtTable, invValid := true, active := s.active.map fun c => { c with building := false } }

/-- The build if INV_VALID = 0, nothing otherwise (30_encoding.md R78, 41_inverse_cache.md R154). -/
def State.ensureBuilt (s : State) : State := if s.invValid then s else s.build

/-- The commands inside which the build runs on first need (30_encoding.md R78, 41_inverse_cache.md R152). -/
def needsTable (o : Opcode) : Bool :=
  match o with
  | .invb | .ginv | .gdiv | .lagr => true
  | .nop | .gadd | .gsub | .gmul | .gaddi | .gmuli | .gli | .pcset | .pcst | .pcld | .peval | .pevali
  | .lpset | .lpst | .lpldx | .lpldy => false

/-! ### Completion -/

/-- `complete(e)`: LAST_ERR, STICKY_ERR and BUSY (60_exceptions.md R305, 30_encoding.md R78). The staged writes of a command
that completes with OK have been made to `s`; an error completes the state the command found, after its build. This is the one
place where an error is taken; nothing is saved and nothing returned to (R307, R308). -/
def State.complete (s : State) (e : ErrorCode) : State :=
  { s with lastErr := e.code, stickyErr := stickyAfter s.stickyErr e, active := none }

/-! ### Reset -/

/-- CTRL.SRST: every piece of state takes its reset value and a command in progress is abandoned; an access the port is holding
stays held (70_reset_and_hazards.md R402). What is still to happen and what was answered are outside the block. -/
def State.softReset (s : State) : State :=
  { State.reset with held := s.held, inputs := s.inputs, replies := s.replies }

/-- The power-on reset input, asserted and released (70_reset_and_hazards.md R400, R401); an access that was held is never
answered (log 8). -/
def State.powerOn (s : State) : State :=
  { State.reset with inputs := s.inputs, replies := s.replies }

end Sys2Proof.Machine
end

