-- ==== Sys2Proof/Machine/Operands.lean ====
section
/-! DEFINITION. The operand forms of the commands (20_memory.md R64, 30_encoding.md R73): a register, a memory entry at an
immediate index, and an immediate used as a length or a count. An immediate used as a field element is that byte as it stands. -/

namespace Sys2Proof.Machine

open Sys2Proof

/-- `COEF[imm]`, immediate direct (20_memory.md R64). -/
def State.coefAt (s : State) (i : Byte) : Byte := s.coef.read i.toNat

/-- `PX[imm]`, immediate direct (20_memory.md R64). -/
def State.pxAt (s : State) (i : Byte) : Byte := s.px.read i.toNat

/-- `PY[imm]`, immediate direct (20_memory.md R64). -/
def State.pyAt (s : State) (i : Byte) : Byte := s.py.read i.toNat

/-- An immediate as a length or a count 0..255, used as it stands (30_encoding.md R73). -/
def countOf (imm : Byte) : Nat := imm.toNat

end Sys2Proof.Machine
end

