-- ==== Sys2Proof/Machine/Control.lean ====
section
/-! DEFINITION. The control commands: NOP (44_control.md R230) and INVB (41_inverse_cache.md R158). -/

namespace Sys2Proof.Machine

open Sys2Proof

/-- NOP: nothing but its completion (44_control.md R230). -/
def execNop (s : State) : Host.Outcome State Fault Refusal := .next (s.complete .ok)

/-- INVB: the build if INV_VALID was 0, nothing else (41_inverse_cache.md R158). -/
def execInvb (s : State) : Host.Outcome State Fault Refusal := .next (s.ensureBuilt.complete .ok)

end Sys2Proof.Machine
end

