-- ==== Sys2Proof/Machine/FieldArith.lean ====
section
/-! DEFINITION. The field arithmetic commands (40_field.md R110 to R117). -/

namespace Sys2Proof.Machine

open Sys2Proof

/-- GADD (40_field.md R110). -/
def execGadd (rd rs1 rs2 : RegIdx) (s : State) : Host.Outcome State Fault Refusal :=
  .next ((s.writeBack rd (gadd (s.reg rs1) (s.reg rs2))).complete .ok)

/-- GSUB (40_field.md R111). -/
def execGsub (rd rs1 rs2 : RegIdx) (s : State) : Host.Outcome State Fault Refusal :=
  .next ((s.writeBack rd (gsub (s.reg rs1) (s.reg rs2))).complete .ok)

/-- GMUL (40_field.md R112). -/
def execGmul (rd rs1 rs2 : RegIdx) (s : State) : Host.Outcome State Fault Refusal :=
  .next ((s.writeBack rd (gmul (s.reg rs1) (s.reg rs2))).complete .ok)

/-- GDIV: the build first, then the divisor check, then the quotient through the table (40_field.md R113). -/
def execGdiv (rd rs1 rs2 : RegIdx) (s : State) : Host.Outcome State Fault Refusal :=
  let b := s.ensureBuilt
  if b.reg rs2 = 0#8 then .next (b.complete .divByZero)
  else .next ((b.writeBack rd (gmul (b.reg rs1) (b.inverse (b.reg rs2)))).complete .ok)

/-- GINV: the build first, then the operand check, then the table entry (40_field.md R114). -/
def execGinv (rd rs1 : RegIdx) (s : State) : Host.Outcome State Fault Refusal :=
  let b := s.ensureBuilt
  if b.reg rs1 = 0#8 then .next (b.complete .divByZero)
  else .next ((b.writeBack rd (b.inverse (b.reg rs1))).complete .ok)

/-- GADDI (40_field.md R115). -/
def execGaddi (rd rs1 : RegIdx) (imm : Byte) (s : State) : Host.Outcome State Fault Refusal :=
  .next ((s.writeBack rd (gadd (s.reg rs1) imm)).complete .ok)

/-- GMULI (40_field.md R116). -/
def execGmuli (rd rs1 : RegIdx) (imm : Byte) (s : State) : Host.Outcome State Fault Refusal :=
  .next ((s.writeBack rd (gmul (s.reg rs1) imm)).complete .ok)

/-- GLI (40_field.md R117). -/
def execGli (rd : RegIdx) (imm : Byte) (s : State) : Host.Outcome State Fault Refusal :=
  .next ((s.writeBack rd imm).complete .ok)

end Sys2Proof.Machine
end

