-- ==== Sys2Proof/Machine/Lagrange.lean ====
section
/-! DEFINITION. Lagrange reconstruction at x = 0 and the commands of the Lagrange group (43_lagrange.md R200 to R209). -/

namespace Sys2Proof.Machine

open Sys2Proof

/-- Two of the first `n` points share an x value: the check over every pair that comes before any term (43_lagrange.md R202). -/
def hasDuplicate (px : Memory) (n : Nat) : Bool :=
  (List.range n).any fun j => (List.range n).any fun k => j != k && px.read j == px.read k

/-- One factor of the basis term of point `j`: x_k / (x_k - x_j), the division through the inverse table
(43_lagrange.md R201, 40_field.md R107). -/
def lagrangeFactor (inv px : Memory) (j k : Nat) : Byte :=
  gmul (px.read k) (inv.read (gsub (px.read k) (px.read j)).toNat)

/-- The basis term of point `j`: y_j times the factors of every other point k below `n` (43_lagrange.md R201). -/
def lagrangeTerm (inv px py : Memory) (n j : Nat) : Byte :=
  (List.range n).foldl (fun t k => if k ≠ j then gmul t (lagrangeFactor inv px j k) else t) (py.read j)

/-- The sum of the basis terms of the first `n` points (43_lagrange.md R201). -/
def lagrangeSum (inv px py : Memory) (n : Nat) : Byte :=
  (List.range n).foldl (fun acc j => gadd acc (lagrangeTerm inv px py n j)) 0#8

/-- `glagr(n)`: DIV_BY_ZERO on a duplicate x value, the interpolated value at x = 0 otherwise (43_lagrange.md R201, R202). -/
def glagr (inv px py : Memory) (n : Nat) : Except ErrorCode Byte :=
  if hasDuplicate px n then .error .divByZero else .ok (lagrangeSum inv px py n)

/-- LPSET (43_lagrange.md R205). -/
def execLpset (idx vx vy : Byte) (s : State) : Host.Outcome State Fault Refusal :=
  .next ((s.setPoint idx vx vy).complete .ok)

/-- LPST (43_lagrange.md R206). -/
def execLpst (idx : Byte) (rs1 rs2 : RegIdx) (s : State) : Host.Outcome State Fault Refusal :=
  .next ((s.setPoint idx (s.reg rs1) (s.reg rs2)).complete .ok)

/-- LPLDX (43_lagrange.md R207). -/
def execLpldx (rd : RegIdx) (idx : Byte) (s : State) : Host.Outcome State Fault Refusal :=
  .next ((s.writeBack rd (s.pxAt idx)).complete .ok)

/-- LPLDY (43_lagrange.md R208). -/
def execLpldy (rd : RegIdx) (idx : Byte) (s : State) : Host.Outcome State Fault Refusal :=
  .next ((s.writeBack rd (s.pyAt idx)).complete .ok)

/-- LAGR: the build first, then the reconstruction (43_lagrange.md R209). -/
def execLagr (rd : RegIdx) (n : Byte) (s : State) : Host.Outcome State Fault Refusal :=
  let b := s.ensureBuilt
  match glagr b.inv b.px b.py (countOf n) with
  | .error e => .next (b.complete e)
  | .ok v => .next ((b.writeBack rd v).complete .ok)

end Sys2Proof.Machine
end

