-- ==== Sys2Proof/Machine/Polynomial.lean ====
section
/-! DEFINITION. Polynomial evaluation and the commands of the polynomial group (42_polynomial.md R170 to R178). -/

namespace Sys2Proof.Machine

open Sys2Proof

/-- The loop of 42_polynomial.md R171 with `n` coefficients to go from index `i` on, sum `acc` and power `pw`. -/
def gevalLoop (coef : Memory) (pt : Byte) : Nat → Nat → Byte → Byte → Byte
  | 0, _, acc, _ => acc
  | n + 1, i, acc, pw => gevalLoop coef pt n (i + 1) (gadd acc (gmul (coef.read i) pw)) (gmul pw pt)

/-- `geval(len, x)`: the sum of COEF[i] * x^i over the first `len` entries, x^0 being 1 (42_polynomial.md R171). -/
def geval (coef : Memory) (len : Nat) (pt : Byte) : Byte := gevalLoop coef pt len 0 0#8 1#8

/-- The loop of Horner's form, from index `n - 1` down, with running sum `acc` (42_polynomial.md R172). -/
def gevalHornerLoop (coef : Memory) (pt : Byte) : Nat → Byte → Byte
  | 0, acc => acc
  | n + 1, acc => gevalHornerLoop coef pt n (gadd (gmul acc pt) (coef.read n))

/-- Horner's form of `geval` (42_polynomial.md R172). No command uses it; the spec says it gives the same value. -/
def gevalHorner (coef : Memory) (len : Nat) (pt : Byte) : Byte := gevalHornerLoop coef pt len 0#8

/-- PCSET (42_polynomial.md R174). -/
def execPcset (idx val : Byte) (s : State) : Host.Outcome State Fault Refusal :=
  .next ((s.setCoef idx val).complete .ok)

/-- PCST (42_polynomial.md R175). -/
def execPcst (idx : Byte) (rs1 : RegIdx) (s : State) : Host.Outcome State Fault Refusal :=
  .next ((s.setCoef idx (s.reg rs1)).complete .ok)

/-- PCLD (42_polynomial.md R176). -/
def execPcld (rd : RegIdx) (idx : Byte) (s : State) : Host.Outcome State Fault Refusal :=
  .next ((s.writeBack rd (s.coefAt idx)).complete .ok)

/-- PEVAL (42_polynomial.md R177). -/
def execPeval (rd rs1 : RegIdx) (len : Byte) (s : State) : Host.Outcome State Fault Refusal :=
  .next ((s.writeBack rd (geval s.coef (countOf len) (s.reg rs1))).complete .ok)

/-- PEVALI (42_polynomial.md R178). -/
def execPevali (rd : RegIdx) (pt len : Byte) (s : State) : Host.Outcome State Fault Refusal :=
  .next ((s.writeBack rd (geval s.coef (countOf len) pt)).complete .ok)

end Sys2Proof.Machine
end

