-- ==== Sys2Proof/Machine/Dispatch.lean ====
section
/-! DEFINITION. The meaning of each command: everything from its acceptance as a legal word to its completion
(30_encoding.md R78). -/

namespace Sys2Proof.Machine

open Sys2Proof

def exec (i : Instr) (s : State) : Host.Outcome State Fault Refusal :=
  match i with
  -- control and the inverse cache
  | .nop => Sys2Proof.Machine.execNop s
  | .invb => Sys2Proof.Machine.execInvb s
  -- field arithmetic
  | .gadd rd rs1 rs2 => Sys2Proof.Machine.execGadd rd rs1 rs2 s
  | .gsub rd rs1 rs2 => Sys2Proof.Machine.execGsub rd rs1 rs2 s
  | .gmul rd rs1 rs2 => Sys2Proof.Machine.execGmul rd rs1 rs2 s
  | .gdiv rd rs1 rs2 => Sys2Proof.Machine.execGdiv rd rs1 rs2 s
  | .ginv rd rs1 => Sys2Proof.Machine.execGinv rd rs1 s
  | .gaddi rd rs1 imm => Sys2Proof.Machine.execGaddi rd rs1 imm s
  | .gmuli rd rs1 imm => Sys2Proof.Machine.execGmuli rd rs1 imm s
  | .gli rd imm => Sys2Proof.Machine.execGli rd imm s
  -- polynomial evaluator
  | .pcset idx val => Sys2Proof.Machine.execPcset idx val s
  | .pcst idx rs1 => Sys2Proof.Machine.execPcst idx rs1 s
  | .pcld rd idx => Sys2Proof.Machine.execPcld rd idx s
  | .peval rd rs1 len => Sys2Proof.Machine.execPeval rd rs1 len s
  | .pevali rd pt len => Sys2Proof.Machine.execPevali rd pt len s
  -- Lagrange reconstruction
  | .lpset idx vx vy => Sys2Proof.Machine.execLpset idx vx vy s
  | .lpst idx rs1 rs2 => Sys2Proof.Machine.execLpst idx rs1 rs2 s
  | .lpldx rd idx => Sys2Proof.Machine.execLpldx rd idx s
  | .lpldy rd idx => Sys2Proof.Machine.execLpldy rd idx s
  | .lagr rd n => Sys2Proof.Machine.execLagr rd n s

end Sys2Proof.Machine
end

