-- ==== Sys2Proof/Machine/Port.lean ====
section
/-! DEFINITION. The host port (20_memory.md R51 to R55, R58, R59): which register an offset names, which accesses are legal, which
are held, and what performing one does. -/

namespace Sys2Proof.Machine

open Sys2Proof

/-- The registers of the window (20_memory.md R51). -/
inductive PortReg where
  | id | param | cmd | status | result | ctrl | reserved
  deriving DecidableEq, Repr

/-- The register at an offset (20_memory.md R51). -/
def portRegAt (offset : Byte) : PortReg :=
  if offset = 0x00#8 then .id
  else if offset = 0x04#8 then .param
  else if offset = 0x08#8 then .cmd
  else if offset = 0x0C#8 then .status
  else if offset = 0x10#8 then .result
  else if offset = 0x14#8 then .ctrl
  else .reserved

/-- The offset of a host byte address that falls in the window at BASE; none for an address outside it (20_memory.md R51). -/
def windowOffset (addr : Nat) : Option Byte :=
  if Config.base ≤ addr ∧ addr < Config.base + Config.windowSize then some (BitVec.ofNat 8 (addr - Config.base)) else none

/-- `MemRead(addr, 4)` and `MemWrite(addr, 4, v)`, and their narrow forms, as the block sees them: an access outside the window
does not reach it (00_scope.md R10, 20_memory.md R50). -/
def accessAtAddress (width : Width) (addr : Nat) (op : AccessOp) : Option HostAccess :=
  (windowOffset addr).map fun off => { width := width, offset := off, op := op }

/-- A legal access: 4 bytes at an offset that is a multiple of 4 (20_memory.md R52). -/
def HostAccess.legal (a : HostAccess) : Bool :=
  match a.width with
  | .byte => false
  | .half => false
  | .word => decide (a.offset.toNat % 4 = 0)

/-- The access is a write. -/
def AccessOp.isWrite : AccessOp → Bool
  | .read => false
  | .write _ => true

/-- An access the port holds while BUSY = 1: a legal CMD write or a legal RESULT read (70_reset_and_hazards.md R405, R406; an
illegal access is never held, 20_memory.md R53). -/
def HostAccess.heldByBusy (a : HostAccess) : Bool :=
  a.legal && ((a.op.isWrite && decide (portRegAt a.offset = .cmd)) || (!a.op.isWrite && decide (portRegAt a.offset = .result)))

/-- What a legal read returns (20_memory.md R51, R52). -/
def State.readPort (s : State) : PortReg → Word
  | .id => Config.idWord
  | .param => Config.paramWord
  | .cmd => 0#32
  | .status => s.status
  | .result => s.result
  | .ctrl => 0#32
  | .reserved => 0#32

/-- Acceptance of a command word: BUSY <- 1 (30_encoding.md R78, 20_memory.md R58). -/
def State.accept (s : State) (w : Word) : State := { s with active := some { word := w, building := false } }

/-- A CTRL write: SRST if bit 0 is 1, else CLRERR if bit 1 is 1; other bits are ignored (10_state.md R31). -/
def State.writeCtrl (s : State) (v : Word) : State :=
  if v.getLsbD 0 then s.softReset else if v.getLsbD 1 then s.clearErrors else s

/-- What a legal write does; read-only and reserved offsets ignore it (20_memory.md R51, R55). -/
def State.writePort (s : State) (r : PortReg) (v : Word) : State :=
  match r with
  | .cmd => s.accept v
  | .ctrl => s.writeCtrl v
  | .id | .param | .status | .result | .reserved => s

/-- The port answers. -/
def State.answer (s : State) (r : Reply) : State := { s with replies := s.replies ++ [r] }

/-- Performing an access: the register's read or write with its answer if it is legal, a bus error and nothing else if not
(20_memory.md R52, R53). -/
def State.perform (s : State) (a : HostAccess) : State :=
  if a.legal then
    match a.op with
    | .read => s.answer (.data (s.readPort (portRegAt a.offset)))
    | .write v => (s.writePort (portRegAt a.offset) v).answer .written
  else s.answer .busError

/-- A host's 4-byte write to CMD, which issues a command (20_memory.md R58). -/
def cmdWrite (w : Word) : HostAccess := { width := .word, offset := 0x08#8, op := .write w }

/-- A host's 4-byte read of RESULT (20_memory.md R59). -/
def resultRead : HostAccess := { width := .word, offset := 0x10#8, op := .read }

/-- A host's 4-byte read of STATUS (10_state.md R25). -/
def statusRead : HostAccess := { width := .word, offset := 0x0C#8, op := .read }

/-- A host's 4-byte write to CTRL (10_state.md R31). -/
def ctrlWrite (v : Word) : HostAccess := { width := .word, offset := 0x14#8, op := .write v }

/-- A host presents an access: the port receives it after everything already presented (20_memory.md R59). -/
def State.present (s : State) (a : HostAccess) : State := { s with inputs := s.inputs ++ [.access a] }

/-- A host writes a list of command words to CMD, one after the other (10_state.md R23). -/
def State.presentCommands (s : State) (ws : List Word) : State :=
  { s with inputs := s.inputs ++ ws.map fun w => .access (cmdWrite w) }

end Sys2Proof.Machine
end

