-- ==== Sys2Proof/Machine/Lane.lean ====
section
/-! DEFINITION. The execution lane and the next event of the block (30_encoding.md R78, 20_memory.md R58, R59,
70_reset_and_hazards.md R402 to R408; log 1, log 5). -/

namespace Sys2Proof.Machine

open Sys2Proof

/-- The command in progress runs to its completion: an illegal word raises ILLEGAL_CMD and does nothing else, a command has its
meaning (30_encoding.md R78, 60_exceptions.md R302). With no command in progress nothing happens. -/
def runCommand (s : State) : Host.Outcome State Fault Refusal :=
  match s.active with
  | none => .next s
  | some c =>
    match decode c.word with
    | .illegal _ => .next (s.complete .illegalCmd)
    | .command i => exec i s

/-- The word is a command inside which the build runs on first need (30_encoding.md R78); an illegal word is none. -/
def buildsTable (w : Word) : Bool :=
  match decode w with
  | .illegal _ => false
  | .command i => needsTable i.opcode

/-- The build begins inside the command in progress: INV_BUILDING <- 1 (41_inverse_cache.md R153). Where the command runs no
build, nothing happens. -/
def State.startBuild (s : State) : State :=
  match s.active with
  | none => s
  | some c =>
    if buildsTable c.word && !s.invValid then { s with active := some { c with building := true } } else s

/-- The build that is running ends, before its command completes (41_inverse_cache.md R153, 10_state.md R29). -/
def State.endBuild (s : State) : State := if s.invBuilding then s.build else s

/-- One instant of the command in progress (70_reset_and_hazards.md R407). -/
def advance (p : Progress) (s : State) : Host.Outcome State Fault Refusal :=
  match p with
  | .buildStarts => .next s.startBuild
  | .buildEnds => .next s.endBuild
  | .completes => runCommand s

/-- The port receives an access (70_reset_and_hazards.md R405 to R407). While BUSY = 1 a CMD write or a RESULT read is held; if
one is held already, this one waits on the bus and the command in progress completes meanwhile (R408). Every other access is
performed at once. -/
def receive (a : HostAccess) (rest : List Input) (s : State) : Host.Outcome State Fault Refusal :=
  if a.heldByBusy && s.busy then
    if s.held.isSome then runCommand s else .next { s with held := some a, inputs := rest }
  else .next ({ s with inputs := rest }.perform a)

/-- The next event of the block. A held access is performed as soon as BUSY = 0, before any later one (20_memory.md R59). With
nothing left to happen the command in progress completes (R408), and an idle block keeps all its state (60_exceptions.md R315). -/
def nextEvent (s : State) : Host.Outcome State Fault Refusal :=
  match s.held, s.busy with
  | some a, false => .next ({ s with held := none }.perform a)
  | _, _ =>
    match s.inputs with
    | [] => runCommand s
    | .progress p :: rest => advance p { s with inputs := rest }
    | .powerOnReset :: rest => .next { s with inputs := rest }.powerOn
    | .access a :: rest => receive a rest s

/-- A command word taken from CMD and about to run: it is in progress, and the next event is its completion (log 2). -/
def State.issue (s : State) (w : Word) : State :=
  { s.accept w with inputs := .progress .completes :: s.inputs }

end Sys2Proof.Machine
end

