-- ==== Sys2Proof/Machine/Step.lean ====
section
/-! DEFINITION. One step of the block, and how a command word is placed where the next step takes it. -/

namespace Sys2Proof.Machine

open Sys2Proof

/-- One step: the next event of the block (nextEvent). -/
def step (s : State) : Host.Outcome State Fault Refusal := nextEvent s

/-- `s` with the command word of the low `nbits` bits of `w` accepted and about to run, so that the very next step runs it
(00_scope.md R12; log 2). -/
def State.withFetchWord (s : State) (nbits w : Nat) : State := s.issue (tableWord nbits w)

end Sys2Proof.Machine
end

