-- ==== Sys2Proof/Machine/Assembler.lean ====
section
/-! DEFINITION. The assembly text of the command set (30_encoding.md R80 to R86): from a source line to its command word. Text is a
list of characters. What the rules leave open of the text is settled in log 10. -/

namespace Sys2Proof.Machine

open Sys2Proof

/-- Why a line is no command. -/
inductive AsmError where
  /-- The mnemonic is no command, pseudo-instruction or `.word`. -/
  | unknownMnemonic
  /-- The number of operands is not the mnemonic's (30_encoding.md R74, R85). -/
  | operandCount
  /-- A register operand is not `r0` to `r15` (30_encoding.md R81). -/
  | badRegister
  /-- An immediate is no number, or outside 0..255: never truncated (30_encoding.md R81). -/
  | badImmediate
  /-- The operand of `.word` is no number, or no 32-bit value (30_encoding.md R83). -/
  | badWord
  deriving DecidableEq, Repr

/-! ### Pseudo-instructions -/

/-- The pseudo-instructions (30_encoding.md R85, R86). -/
inductive Pseudo where
  | gmov (rd rs : RegIdx)
  | gneg (rd rs : RegIdx)
  | gsubi (rd rs : RegIdx) (imm : Byte)
  | gclr (rd : RegIdx)
  | gsqr (rd rs : RegIdx)
  | pcclr (idx : Byte)
  | gout (rs : RegIdx)
  deriving DecidableEq, Repr

/-- The one command a pseudo-instruction expands to (30_encoding.md R85, R86). -/
def Pseudo.expand : Pseudo → Instr
  | .gmov rd rs => .gaddi rd rs 0#8
  | .gneg rd rs => .gaddi rd rs 0#8
  | .gsubi rd rs imm => .gaddi rd rs imm
  | .gclr rd => .gli rd 0#8
  | .gsqr rd rs => .gmul rd rs rs
  | .pcclr idx => .pcset idx 0#8
  | .gout rs => .gaddi rs rs 0#8

/-! ### Operand lists and mnemonics -/

/-- The operand lists of the assembly columns of 30_encoding.md R74 and R85, with the command they make: `R` a register, `I` an
immediate, in source order. -/
inductive AsmForm where
  | none (i : Instr)
  | R (f : RegIdx → Instr)
  | I (f : Byte → Instr)
  | RR (f : RegIdx → RegIdx → Instr)
  | RI (f : RegIdx → Byte → Instr)
  | IR (f : Byte → RegIdx → Instr)
  | II (f : Byte → Byte → Instr)
  | RRR (f : RegIdx → RegIdx → RegIdx → Instr)
  | RRI (f : RegIdx → RegIdx → Byte → Instr)
  | RII (f : RegIdx → Byte → Byte → Instr)
  | IRR (f : Byte → RegIdx → RegIdx → Instr)
  | III (f : Byte → Byte → Byte → Instr)

/-- The mnemonics of the commands, in the order of the opcode map (30_encoding.md R74). -/
def commandForms : List (List Char × AsmForm) :=
  [("nop".toList, .none .nop), ("invb".toList, .none .invb),
   ("gadd".toList, .RRR .gadd), ("gsub".toList, .RRR .gsub), ("gmul".toList, .RRR .gmul), ("gdiv".toList, .RRR .gdiv),
   ("ginv".toList, .RR .ginv), ("gaddi".toList, .RRI .gaddi), ("gmuli".toList, .RRI .gmuli), ("gli".toList, .RI .gli),
   ("pcset".toList, .II .pcset), ("pcst".toList, .IR .pcst), ("pcld".toList, .RI .pcld),
   ("peval".toList, .RRI .peval), ("pevali".toList, .RII .pevali),
   ("lpset".toList, .III .lpset), ("lpst".toList, .IRR .lpst), ("lpldx".toList, .RI .lpldx), ("lpldy".toList, .RI .lpldy),
   ("lagr".toList, .RI .lagr)]

/-- The mnemonics of the pseudo-instructions (30_encoding.md R85, R86). -/
def pseudoForms : List (List Char × AsmForm) :=
  [("gmov".toList, .RR fun rd rs => (Pseudo.gmov rd rs).expand),
   ("gneg".toList, .RR fun rd rs => (Pseudo.gneg rd rs).expand),
   ("gsubi".toList, .RRI fun rd rs imm => (Pseudo.gsubi rd rs imm).expand),
   ("gclr".toList, .R fun rd => (Pseudo.gclr rd).expand),
   ("gsqr".toList, .RR fun rd rs => (Pseudo.gsqr rd rs).expand),
   ("pcclr".toList, .I fun idx => (Pseudo.pcclr idx).expand),
   ("gout".toList, .R fun rs => (Pseudo.gout rs).expand)]

/-! ### Characters and numbers -/

/-- White space inside a line (log 10). -/
def isBlank (c : Char) : Bool := c == ' ' || c == '\t' || c == '\r'

/-- The text without the white space at its two ends. -/
def trimBlank (cs : List Char) : List Char := ((cs.dropWhile isBlank).reverse.dropWhile isBlank).reverse

/-- The text before a comment, which `;` starts (30_encoding.md R80). -/
def beforeComment (cs : List Char) : List Char := cs.takeWhile fun c => c != ';'

/-- Lower case, since mnemonics and register names are case-insensitive (30_encoding.md R80). -/
def lowered (cs : List Char) : List Char := cs.map Char.toLower

/-- The parts between commas (30_encoding.md R80). -/
def splitCommas : List Char → List (List Char)
  | [] => [[]]
  | c :: cs =>
    if c = ',' then [] :: splitCommas cs
    else
      match splitCommas cs with
      | [] => [[c]]
      | part :: parts => (c :: part) :: parts

/-- The operands of a line's text after its mnemonic; none when it is blank. -/
def operandsOf (cs : List Char) : List (List Char) :=
  if (trimBlank cs).isEmpty then [] else (splitCommas cs).map trimBlank

/-- The value of a digit character, if it is one below `base`. -/
def digitValue (base : Nat) (c : Char) : Option Nat :=
  let v :=
    if '0' ≤ c ∧ c ≤ '9' then c.toNat - '0'.toNat
    else if 'a' ≤ c ∧ c ≤ 'f' then c.toNat - 'a'.toNat + 10
    else base
  if v < base then some v else none

/-- The value of a run of digits, on top of the digits already read. -/
def digitsValue (base : Nat) : List Char → Nat → Option Nat
  | [], acc => some acc
  | c :: cs, acc =>
    match digitValue base c with
    | none => none
    | some v => digitsValue base cs (acc * base + v)

/-- A number in decimal, or in hexadecimal with the `0x` prefix (30_encoding.md R81, R83). -/
def numberValue (cs : List Char) : Option Nat :=
  match cs with
  | [] => none
  | '0' :: 'x' :: [] => none
  | '0' :: 'x' :: hs => digitsValue 16 hs 0
  | ds => digitsValue 10 ds 0

/-! ### Operands -/

/-- A register operand: `r0` to `r15` (30_encoding.md R81). -/
def registerOperand (cs : List Char) : Except AsmError RegIdx :=
  match cs with
  | 'r' :: ds =>
    match ds, digitsValue 10 ds 0 with
    | [], _ => .error .badRegister
    | '0' :: _ :: _, _ => .error .badRegister
    | _, none => .error .badRegister
    | _, some n => if regInRange n then .ok (Fin.ofNat 16 n) else .error .badRegister
  | _ => .error .badRegister

/-- An immediate operand: 0 to 255 (30_encoding.md R81). -/
def immediateOperand (cs : List Char) : Except AsmError Byte :=
  match numberValue cs with
  | none => .error .badImmediate
  | some n => if byteInRange n then .ok (BitVec.ofNat 8 n) else .error .badImmediate

/-- The operand of `.word` (30_encoding.md R83). -/
def wordOperand (cs : List Char) : Except AsmError Word :=
  match numberValue cs with
  | none => .error .badWord
  | some n => if wordInRange n then .ok (BitVec.ofNat 32 n) else .error .badWord

/-- The command a form makes of its operands, in source order (30_encoding.md R82). -/
def AsmForm.apply (form : AsmForm) (ops : List (List Char)) : Except AsmError Instr :=
  match form, ops with
  | .none i, [] => .ok i
  | .R f, [a] => (registerOperand a).map f
  | .I f, [a] => (immediateOperand a).map f
  | .RR f, [a, b] => do return f (← registerOperand a) (← registerOperand b)
  | .RI f, [a, b] => do return f (← registerOperand a) (← immediateOperand b)
  | .IR f, [a, b] => do return f (← immediateOperand a) (← registerOperand b)
  | .II f, [a, b] => do return f (← immediateOperand a) (← immediateOperand b)
  | .RRR f, [a, b, c] => do return f (← registerOperand a) (← registerOperand b) (← registerOperand c)
  | .RRI f, [a, b, c] => do return f (← registerOperand a) (← registerOperand b) (← immediateOperand c)
  | .RII f, [a, b, c] => do return f (← registerOperand a) (← immediateOperand b) (← immediateOperand c)
  | .IRR f, [a, b, c] => do return f (← immediateOperand a) (← registerOperand b) (← registerOperand c)
  | .III f, [a, b, c] => do return f (← immediateOperand a) (← immediateOperand b) (← immediateOperand c)
  | _, _ => .error .operandCount

/-! ### Lines -/

/-- The word of a mnemonic with its operands: a command's, its expansion's, or the operand of `.word` unchanged
(30_encoding.md R82, R83, R85). -/
def assembleOp (mnemonic : List Char) (ops : List (List Char)) : Except AsmError Word :=
  if mnemonic = ".word".toList then
    match ops with
    | [a] => wordOperand a
    | _ => .error .operandCount
  else
    match (commandForms ++ pseudoForms).find? fun row => row.1 == mnemonic with
    | none => .error .unknownMnemonic
    | some row => (row.2.apply ops).map encode

/-- One source line: its command word, or none for a line with nothing before its comment (30_encoding.md R80). -/
def assembleLine (line : List Char) : Except AsmError (Option Word) :=
  let text := lowered (trimBlank (beforeComment line))
  if text.isEmpty then .ok none
  else
    let mnemonic := text.takeWhile fun c => !isBlank c
    (assembleOp mnemonic (operandsOf (text.dropWhile fun c => !isBlank c))).map some

/-- A source text, one command per line: its command words in order (30_encoding.md R80). -/
def assemble : List (List Char) → Except AsmError (List Word)
  | [] => .ok []
  | line :: lines =>
    match assembleLine line, assemble lines with
    | .error e, _ => .error e
    | .ok _, .error e => .error e
    | .ok none, .ok ws => .ok ws
    | .ok (some w), .ok ws => .ok (w :: ws)

end Sys2Proof.Machine
end

