-- ==== Sys2Proof/Safety.lean ====
section
/-! DEFINITION. What counts as a sound state and a safe run of GF256U, in the terms the statements use. -/

namespace Sys2Proof.Machine

open Sys2Proof

/-- Every internal memory is in its canonical form, so that equal memories are equal data. -/
def State.MemoriesCanonical (s : State) : Prop :=
  s.coef.wf = true ∧ s.px.wf = true ∧ s.py.wf = true ∧ s.inv.wf = true

/-- INV_VALID = 1 says that every nonzero entry of the inverse table is the entry's inverse (41_inverse_cache.md R151, R155). -/
def State.TableSound (s : State) : Prop :=
  s.invValid = true → ∀ a : Byte, a ≠ 0#8 → gmul a (s.inverse a) = 1#8

/-- RESULT bits 31:8 are 0 (10_state.md R24). -/
def State.ResultHighZero (s : State) : Prop := s.result.extractLsb' 8 24 = 0#24

/-- LAST_ERR holds one of the codes 0x0 to 0x2, and a code other than OK has set STICKY_ERR (10_state.md R26, R27). -/
def State.ErrorsSound (s : State) : Prop :=
  s.lastErr.toNat ≤ 2 ∧ (s.lastErr ≠ 0#4 → s.stickyErr = true)

/-- A build runs only inside a command that needs the table, while INV_VALID = 0 (41_inverse_cache.md R152, R154). -/
def State.BuildSound (s : State) : Prop :=
  ∀ c, s.active = some c → c.building = true → s.invValid = false ∧ buildsTable c.word = true

/-- The port holds nothing but CMD writes and RESULT reads (70_reset_and_hazards.md R405 to R407). -/
def State.HeldSound (s : State) : Prop := ∀ a, s.held = some a → a.heldByBusy = true

/-- The invariant of the block: what every state it can reach satisfies. -/
structure State.Sound (s : State) : Prop where
  memories : s.MemoriesCanonical
  table : s.TableSound
  resultHigh : s.ResultHighZero
  errors : s.ErrorsSound
  build : s.BuildSound
  held : s.HeldSound

/-- The states a run passes through from `s`. -/
inductive Reachable (s : State) : State → Prop where
  | start : Reachable s s
  | step {t u : State} : Reachable s t → Machine.step t = .next u → Reachable s u

/-- A run from `s` is safe: it never stops, and every state it passes through is sound (93_implementation_defined.md: "No
behaviour of the block is `stuck`"). -/
def SafeFrom (s : State) : Prop :=
  ∀ t, Reachable s t → t.Sound ∧ ∃ u, Machine.step t = .next u

/-! ### What a command may write -/

/-- The register a command writes, and with it RESULT; none for the stores, NOP and INVB (10_state.md R24). -/
def destReg : Instr → Option RegIdx
  | .nop | .invb | .pcset .. | .pcst .. | .lpset .. | .lpst .. => none
  | .gadd rd _ _ | .gsub rd _ _ | .gmul rd _ _ | .gdiv rd _ _ | .ginv rd _ | .gaddi rd _ _ | .gmuli rd _ _ | .gli rd _
  | .pcld rd _ | .peval rd _ _ | .pevali rd _ _ | .lpldx rd _ | .lpldy rd _ | .lagr rd _ => some rd

/-- The index of COEF a command stores to; only PCSET and PCST store there (10_state.md R34, 20_memory.md R64). -/
def coefStore : Instr → Option Byte
  | .pcset idx _ | .pcst idx _ => some idx
  | .nop | .invb | .gadd .. | .gsub .. | .gmul .. | .gdiv .. | .ginv .. | .gaddi .. | .gmuli .. | .gli .. | .pcld ..
  | .peval .. | .pevali .. | .lpset .. | .lpst .. | .lpldx .. | .lpldy .. | .lagr .. => none

/-- The index of PX and PY a command stores to; only LPSET and LPST store there (10_state.md R35, 20_memory.md R64). -/
def pointStore : Instr → Option Byte
  | .lpset idx _ _ | .lpst idx _ _ => some idx
  | .nop | .invb | .gadd .. | .gsub .. | .gmul .. | .gdiv .. | .ginv .. | .gaddi .. | .gmuli .. | .gli .. | .pcset ..
  | .pcst .. | .pcld .. | .peval .. | .pevali .. | .lpldx .. | .lpldy .. | .lagr .. => none

/-- Two of the first `n` points share an x value (43_lagrange.md R202). -/
def DuplicateX (px : Memory) (n : Nat) : Prop := ∃ j k, j < n ∧ k < n ∧ j ≠ k ∧ px.read j = px.read k

/-- When a command raises DIV_BY_ZERO (60_exceptions.md R301). -/
def DividesByZero (s : State) : Instr → Prop
  | .gdiv _ _ rs2 => s.reg rs2 = 0#8
  | .ginv _ rs1 => s.reg rs1 = 0#8
  | .lagr _ n => DuplicateX s.px n.toNat
  | .nop | .invb | .gadd .. | .gsub .. | .gmul .. | .gaddi .. | .gmuli .. | .gli .. | .pcset .. | .pcst .. | .pcld ..
  | .peval .. | .pevali .. | .lpset .. | .lpst .. | .lpldx .. | .lpldy .. => False

/-! ### Runs of commands -/

/-- The state after one command word, executed from acceptance to completion in a block that does nothing else. -/
def afterCommand (s : State) (w : Word) : State :=
  match runCommand (s.accept w) with
  | .next t => t
  | .fault _ => s
  | .refused _ => s

/-- The state after a list of command words, one after the other. -/
def afterCommands (s : State) (ws : List Word) : State := ws.foldl afterCommand s

end Sys2Proof.Machine
end

