-- ==== Sys2Proof/Certificates/Slice0/Obligations.lean ====
section
/-! DEFINITION. The statements about GF256U for the provers, from the numbered rules of spec/. A command's statement gives its
encoding (with every value of its must-be-zero bits), its whole next state (so its frame), and when it raises an error. -/

open Sys2Proof Sys2Proof.Machine

namespace Sys2Proof.Machine

/-- g^n in the field: 1 multiplied n times by g. -/
def gpow (g : Byte) : Nat → Byte
  | 0 => 1#8
  | n + 1 => gmul (gpow g n) g

/-- The formula of 43_lagrange.md R201 with `gdiv` itself in place of the table: the sum over j of
y_j times the product over k ≠ j of x_k / (x_k - x_j). -/
def lagrangeValue (px py : Memory) (n : Nat) : Byte :=
  (List.range n).foldl (fun acc j =>
    gadd acc ((List.range n).foldl (fun t k =>
      if k ≠ j then gmul t (gdiv (px.read k) (gsub (px.read k) (px.read j))) else t) (py.read j))) 0#8

/-- A table whose entry at every nonzero element is that element's inverse (41_inverse_cache.md R150). -/
def InverseTable (m : Memory) : Prop := ∀ a : Byte, a ≠ 0#8 → gmul a (m.read a.toNat) = 1#8

/-- The entries of the table of 41_inverse_cache.md R159 for a = 1, 2, ..., 255, as the spec prints them. -/
def printedTable : List Byte :=
  [0x01#8, 0x8D#8, 0xF6#8, 0xCB#8, 0x52#8, 0x7B#8, 0xD1#8, 0xE8#8, 0x4F#8, 0x29#8, 0xC0#8, 0xB0#8, 0xE1#8, 0xE5#8, 0xC7#8]
  ++ [0x74#8, 0xB4#8, 0xAA#8, 0x4B#8, 0x99#8, 0x2B#8, 0x60#8, 0x5F#8, 0x58#8, 0x3F#8, 0xFD#8, 0xCC#8, 0xFF#8, 0x40#8, 0xEE#8, 0xB2#8]
  ++ [0x3A#8, 0x6E#8, 0x5A#8, 0xF1#8, 0x55#8, 0x4D#8, 0xA8#8, 0xC9#8, 0xC1#8, 0x0A#8, 0x98#8, 0x15#8, 0x30#8, 0x44#8, 0xA2#8, 0xC2#8]
  ++ [0x2C#8, 0x45#8, 0x92#8, 0x6C#8, 0xF3#8, 0x39#8, 0x66#8, 0x42#8, 0xF2#8, 0x35#8, 0x20#8, 0x6F#8, 0x77#8, 0xBB#8, 0x59#8, 0x19#8]
  ++ [0x1D#8, 0xFE#8, 0x37#8, 0x67#8, 0x2D#8, 0x31#8, 0xF5#8, 0x69#8, 0xA7#8, 0x64#8, 0xAB#8, 0x13#8, 0x54#8, 0x25#8, 0xE9#8, 0x09#8]
  ++ [0xED#8, 0x5C#8, 0x05#8, 0xCA#8, 0x4C#8, 0x24#8, 0x87#8, 0xBF#8, 0x18#8, 0x3E#8, 0x22#8, 0xF0#8, 0x51#8, 0xEC#8, 0x61#8, 0x17#8]
  ++ [0x16#8, 0x5E#8, 0xAF#8, 0xD3#8, 0x49#8, 0xA6#8, 0x36#8, 0x43#8, 0xF4#8, 0x47#8, 0x91#8, 0xDF#8, 0x33#8, 0x93#8, 0x21#8, 0x3B#8]
  ++ [0x79#8, 0xB7#8, 0x97#8, 0x85#8, 0x10#8, 0xB5#8, 0xBA#8, 0x3C#8, 0xB6#8, 0x70#8, 0xD0#8, 0x06#8, 0xA1#8, 0xFA#8, 0x81#8, 0x82#8]
  ++ [0x83#8, 0x7E#8, 0x7F#8, 0x80#8, 0x96#8, 0x73#8, 0xBE#8, 0x56#8, 0x9B#8, 0x9E#8, 0x95#8, 0xD9#8, 0xF7#8, 0x02#8, 0xB9#8, 0xA4#8]
  ++ [0xDE#8, 0x6A#8, 0x32#8, 0x6D#8, 0xD8#8, 0x8A#8, 0x84#8, 0x72#8, 0x2A#8, 0x14#8, 0x9F#8, 0x88#8, 0xF9#8, 0xDC#8, 0x89#8, 0x9A#8]
  ++ [0xFB#8, 0x7C#8, 0x2E#8, 0xC3#8, 0x8F#8, 0xB8#8, 0x65#8, 0x48#8, 0x26#8, 0xC8#8, 0x12#8, 0x4A#8, 0xCE#8, 0xE7#8, 0xD2#8, 0x62#8]
  ++ [0x0C#8, 0xE0#8, 0x1F#8, 0xEF#8, 0x11#8, 0x75#8, 0x78#8, 0x71#8, 0xA5#8, 0x8E#8, 0x76#8, 0x3D#8, 0xBD#8, 0xBC#8, 0x86#8, 0x57#8]
  ++ [0x0B#8, 0x28#8, 0x2F#8, 0xA3#8, 0xDA#8, 0xD4#8, 0xE4#8, 0x0F#8, 0xA9#8, 0x27#8, 0x53#8, 0x04#8, 0x1B#8, 0xFC#8, 0xAC#8, 0xE6#8]
  ++ [0x7A#8, 0x07#8, 0xAE#8, 0x63#8, 0xC5#8, 0xDB#8, 0xE2#8, 0xEA#8, 0x94#8, 0x8B#8, 0xC4#8, 0xD5#8, 0x9D#8, 0xF8#8, 0x90#8, 0x6B#8]
  ++ [0xB1#8, 0x0D#8, 0xD6#8, 0xEB#8, 0xC6#8, 0x0E#8, 0xCF#8, 0xAD#8, 0x08#8, 0x4E#8, 0xD7#8, 0xE3#8, 0x5D#8, 0x50#8, 0x1E#8, 0xB3#8]
  ++ [0x5B#8, 0x23#8, 0x38#8, 0x34#8, 0x68#8, 0x46#8, 0x03#8, 0x8C#8, 0xDD#8, 0x9C#8, 0x7D#8, 0xA0#8, 0xCD#8, 0x1A#8, 0x41#8, 0x1C#8]

end Sys2Proof.Machine

/-! ### Encoding -/

/-- 30_encoding.md R84: the three worked words are the commands they are given for, in both directions. -/
def Obligations.WorkedWordsAreTheirCommands : Prop :=
  decode 0x12312000#32 = .command (.gmul 3 1 2) ∧ encode (.gmul 3 1 2) = 0x12312000#32 ∧
  decode 0x30051802#32 = .command (.lpset 2#8 5#8 0x18#8) ∧ encode (.lpset 2#8 5#8 0x18#8) = 0x30051802#32 ∧
  decode 0x29400403#32 = .command (.pevali 4 4#8 3#8) ∧ encode (.pevali 4 4#8 3#8) = 0x29400403#32

/-- Decoding the encoding of any command, with every operand at every value, gives the command back, and every command is
well-formed (30_encoding.md R72, R74, R82). -/
def Obligations.DecodeOfEncodeIsTheCommand : Prop :=
  ∀ i : Instr, i.wellFormed = true ∧ decode (encode i) = .command i

/-- Every legal word is the encoding of the one command it decodes to (30_encoding.md R74: each word has one meaning). -/
def Obligations.EncodeOfDecodeIsTheWord : Prop :=
  ∀ (w : Word) (i : Instr), decode w = .command i → encode i = w

/-- 30_encoding.md R76: a word is illegal exactly when its opcode is unassigned (the spec's list) or a must-be-zero bit of its
row is 1, and the execution of an illegal word raises ILLEGAL_CMD. -/
def Obligations.IllegalWordsAreExactlyThese : Prop :=
  (∀ w : Word, decode w = .illegal .unassignedOpcode ↔ ∀ o : Opcode, fieldOp w ≠ o.code) ∧
  (∀ w : Word, decode w = .illegal .mustBeZero ↔ ∃ o : Opcode, fieldOp w = o.code ∧ w &&& o.mask ≠ o.pattern) ∧
  (∀ b : Byte, (∀ o : Opcode, b ≠ o.code) ↔
    (b.toNat = 0x00 ∨ (0x03 ≤ b.toNat ∧ b.toNat ≤ 0x0F) ∨ (0x15 ≤ b.toNat ∧ b.toNat ≤ 0x17) ∨ b.toNat = 0x19 ∨
     b.toNat = 0x1B ∨ (0x1D ≤ b.toNat ∧ b.toNat ≤ 0x1F) ∨ (0x23 ≤ b.toNat ∧ b.toNat ≤ 0x27) ∨
     (0x2A ≤ b.toNat ∧ b.toNat ≤ 0x2F) ∨ (0x34 ≤ b.toNat ∧ b.toNat ≤ 0x37) ∨ 0x39 ≤ b.toNat)) ∧
  (∀ (s : State) (c : InProgress) (r : IllegalReason), s.active = some c → decode c.word = .illegal r →
    ∃ t, runCommand s = .next t ∧ t.lastErr = 0x2#4)

/-- Every word an assembly line other than `.word` makes is the encoding of a command, so it is never illegal
(30_encoding.md R82). -/
def Obligations.AssembledCommandsAreLegal : Prop :=
  ∀ (mnemonic : List Char) (ops : List (List Char)) (w : Word), mnemonic ≠ ".word".toList →
    assembleOp mnemonic ops = .ok w → ∃ i, decode w = .command i ∧ encode i = w

/-- 30_encoding.md R85, R86: what each pseudo-instruction's one command does. -/
def Obligations.PseudoInstructionsDoWhatTheyName : Prop :=
  ∀ (rd rs : RegIdx) (imm idx : Byte) (s : State),
    exec (Pseudo.gmov rd rs).expand s = .next { s with
      x := s.x.set rd.val (s.reg rs), result := (s.reg rs).setWidth 32, lastErr := 0#4, active := none } ∧
    exec (Pseudo.gneg rd rs).expand s = .next { s with
      x := s.x.set rd.val (s.reg rs), result := (s.reg rs).setWidth 32, lastErr := 0#4, active := none } ∧
    exec (Pseudo.gsubi rd rs imm).expand s = .next { s with
      x := s.x.set rd.val (gsub (s.reg rs) imm), result := (gsub (s.reg rs) imm).setWidth 32, lastErr := 0#4, active := none } ∧
    exec (Pseudo.gclr rd).expand s = .next { s with
      x := s.x.set rd.val 0#8, result := 0#32, lastErr := 0#4, active := none } ∧
    exec (Pseudo.gsqr rd rs).expand s = .next { s with
      x := s.x.set rd.val (gmul (s.reg rs) (s.reg rs)), result := (gmul (s.reg rs) (s.reg rs)).setWidth 32,
      lastErr := 0#4, active := none } ∧
    (∃ t, exec (Pseudo.pcclr idx).expand s = .next t ∧
      t = { s with coef := t.coef, lastErr := 0#4, active := none } ∧
      (s.coef.wf = true → ∀ a, t.coef.read a = if a = idx.toNat then 0#8 else s.coef.read a)) ∧
    exec (Pseudo.gout rs).expand s = .next { s with
      result := (s.reg rs).setWidth 32, lastErr := 0#4, active := none }

/-! ### Control and the inverse cache -/

/-- 44_control.md R230: NOP changes nothing but LAST_ERR, which it clears. -/
def Obligations.NopOnlyClearsLastErr : Prop :=
  ∀ (z : BitVec 24) (s : State),
    decode (0x01#8 ++ z) = (if z = 0#24 then .command .nop else .illegal .mustBeZero) ∧
    exec .nop s = .next { s with lastErr := 0#4, active := none }

/-- 41_inverse_cache.md R158: INVB leaves a built table and INV_VALID = 1, keeps a table already built, and changes nothing else
but LAST_ERR. -/
def Obligations.InvbBuildsTheTable : Prop :=
  ∀ (z : BitVec 24) (s : State), s.TableSound →
    decode (0x02#8 ++ z) = (if z = 0#24 then .command .invb else .illegal .mustBeZero) ∧
    ∃ m, InverseTable m ∧ (s.invValid = true → m = s.inv) ∧
      exec .invb s = .next { s with inv := m, invValid := true, lastErr := 0#4, active := none }

/-- 41_inverse_cache.md R152: while INV_VALID = 0, exactly INVB, GINV, GDIV and LAGR build the table, whatever their operands
are, and reset does not. -/
def Obligations.BuildRunsOnFirstNeedOnly : Prop :=
  State.reset.invValid = false ∧
  ∀ (i : Instr) (s : State), s.invValid = false →
    ∃ t, exec i s = .next t ∧
      (t.invValid = true ↔
        i = .invb ∨ (∃ rd rs1, i = .ginv rd rs1) ∨ (∃ rd rs1 rs2, i = .gdiv rd rs1 rs2) ∨ (∃ rd n, i = .lagr rd n))

/-- 41_inverse_cache.md R155: with INV_VALID = 1 an entry is ginv of its element, the unique b with gmul(a, b) = 1, and every
build records the same table. -/
def Obligations.LookupIsTheUniqueInverse : Prop :=
  (∀ s : State, s.TableSound → s.invValid = true → ∀ a : Byte, a ≠ 0#8 →
    s.inverse a = ginv a ∧ gmul a (s.inverse a) = 1#8 ∧ ∀ b, gmul a b = 1#8 → b = s.inverse a) ∧
  ∀ s : State, s.build.inv = builtTable ∧ InverseTable builtTable

/-- 41_inverse_cache.md R159: the build records the table the spec prints, entries 1 to 255, and 0x01 is the only element that is
its own inverse. -/
def Obligations.BuiltTableIsThePrintedTable : Prop :=
  builtTable.map (fun c => c.1) = (List.range 255).map (fun k => k + 1) ∧
  builtTable.map (fun c => c.2) = printedTable ∧
  ∀ a : Byte, a ≠ 0#8 → (ginv a = a ↔ a = 0x01#8)

/-- The content of INV while INV_VALID = 0 changes nothing but itself: two blocks that differ only in it take the same step, and
agree on the table as soon as it is built (10_state.md R36, 41_inverse_cache.md R157). -/
def Obligations.UnbuiltTableIsUnobservable : Prop :=
  ∀ (s : State) (m : Memory), s.invValid = false →
    ∃ t m', step s = .next t ∧ step { s with inv := m } = .next { t with inv := m' } ∧ (t.invValid = true → m' = t.inv)

/-! ### The field -/

/-- 40_field.md R105: gmul is commutative, associative and distributes over addition; 1 is its unit, 0 absorbs and only 0 does;
0x03 generates the nonzero elements and 0x02 has order 51. -/
def Obligations.GmulObeysTheFieldLaws : Prop :=
  (∀ a b, gmul a b = gmul b a) ∧
  (∀ a b c, gmul (gmul a b) c = gmul a (gmul b c)) ∧
  (∀ a b c, gmul a (gadd b c) = gadd (gmul a b) (gmul a c)) ∧
  (∀ a, gmul a 1#8 = a) ∧ (∀ a, gmul a 0#8 = 0#8) ∧
  (∀ a b, gmul a b = 0#8 → a = 0#8 ∨ b = 0#8) ∧
  (∀ a, a ≠ 0#8 → ∃ n, n < 255 ∧ gpow 0x03#8 n = a) ∧
  gpow 0x02#8 51 = 1#8 ∧ (∀ n, 0 < n → n < 51 → gpow 0x02#8 n ≠ 1#8)

/-- 40_field.md R108 and R107: a + a = 0, a * ginv(a) = 1 for a nonzero, (a / b) * b = a and 0 / b = 0 for b nonzero. -/
def Obligations.AdditionAndDivisionUndoThemselves : Prop :=
  (∀ a, gadd a a = 0#8) ∧ (∀ a b, gsub a b = gadd a b) ∧
  (∀ a, a ≠ 0#8 → gmul a (ginv a) = 1#8) ∧
  (∀ a b, b ≠ 0#8 → gdiv a b = gmul a (ginv b) ∧ gmul (gdiv a b) b = a ∧ gdiv 0#8 b = 0#8)

/-! ### Field arithmetic commands -/

/-- 40_field.md R110: GADD. -/
def Obligations.GaddXorsTwoRegisters : Prop :=
  ∀ (rd rs1 rs2 : RegIdx) (z : BitVec 12) (s : State),
    decode (0x10#8 ++ BitVec.ofNat 4 rd ++ BitVec.ofNat 4 rs1 ++ BitVec.ofNat 4 rs2 ++ z) =
      (if z = 0#12 then .command (.gadd rd rs1 rs2) else .illegal .mustBeZero) ∧
    exec (.gadd rd rs1 rs2) s = .next { s with
      x := s.x.set rd.val (s.reg rs1 ^^^ s.reg rs2), result := (s.reg rs1 ^^^ s.reg rs2).setWidth 32,
      lastErr := 0#4, active := none } ∧
    (rs1 = rs2 → s.reg rs1 ^^^ s.reg rs2 = 0#8)

/-- 40_field.md R111: GSUB. -/
def Obligations.GsubXorsTwoRegisters : Prop :=
  ∀ (rd rs1 rs2 : RegIdx) (z : BitVec 12) (s : State),
    decode (0x11#8 ++ BitVec.ofNat 4 rd ++ BitVec.ofNat 4 rs1 ++ BitVec.ofNat 4 rs2 ++ z) =
      (if z = 0#12 then .command (.gsub rd rs1 rs2) else .illegal .mustBeZero) ∧
    exec (.gsub rd rs1 rs2) s = .next { s with
      x := s.x.set rd.val (s.reg rs1 ^^^ s.reg rs2), result := (s.reg rs1 ^^^ s.reg rs2).setWidth 32,
      lastErr := 0#4, active := none } ∧
    exec (.gsub rd rs1 rs2) s = exec (.gadd rd rs1 rs2) s ∧ exec (.gsub rd rs1 rs2) s = exec (.gsub rd rs2 rs1) s

/-- 40_field.md R112: GMUL, with its corner cases; it never builds the table. -/
def Obligations.GmulMultipliesTwoRegisters : Prop :=
  ∀ (rd rs1 rs2 : RegIdx) (z : BitVec 12) (s : State),
    decode (0x12#8 ++ BitVec.ofNat 4 rd ++ BitVec.ofNat 4 rs1 ++ BitVec.ofNat 4 rs2 ++ z) =
      (if z = 0#12 then .command (.gmul rd rs1 rs2) else .illegal .mustBeZero) ∧
    exec (.gmul rd rs1 rs2) s = .next { s with
      x := s.x.set rd.val (gmul (s.reg rs1) (s.reg rs2)), result := (gmul (s.reg rs1) (s.reg rs2)).setWidth 32,
      lastErr := 0#4, active := none } ∧
    (s.reg rs1 = 0#8 ∨ s.reg rs2 = 0#8 → gmul (s.reg rs1) (s.reg rs2) = 0#8) ∧
    (s.reg rs1 = 1#8 → gmul (s.reg rs1) (s.reg rs2) = s.reg rs2) ∧
    (s.reg rs2 = 1#8 → gmul (s.reg rs1) (s.reg rs2) = s.reg rs1) ∧
    gmul 0x80#8 0x02#8 = 0x1B#8

/-- 40_field.md R113: GDIV builds the table first if it must, raises DIV_BY_ZERO when the divisor is 0, and otherwise writes the
quotient, which times the divisor is the dividend. -/
def Obligations.GdivDividesOrRaises : Prop :=
  ∀ (rd rs1 rs2 : RegIdx) (z : BitVec 12) (s : State), s.TableSound →
    decode (0x13#8 ++ BitVec.ofNat 4 rd ++ BitVec.ofNat 4 rs1 ++ BitVec.ofNat 4 rs2 ++ z) =
      (if z = 0#12 then .command (.gdiv rd rs1 rs2) else .illegal .mustBeZero) ∧
    ∃ m, InverseTable m ∧ (s.invValid = true → m = s.inv) ∧
      (s.reg rs2 = 0#8 → exec (.gdiv rd rs1 rs2) s = .next { s with
        inv := m, invValid := true, lastErr := 0x1#4, stickyErr := true, active := none }) ∧
      (s.reg rs2 ≠ 0#8 → ∃ q, q = gdiv (s.reg rs1) (s.reg rs2) ∧ gmul q (s.reg rs2) = s.reg rs1 ∧
        (s.reg rs1 = 0#8 → q = 0#8) ∧ (s.reg rs1 = s.reg rs2 → q = 1#8) ∧
        exec (.gdiv rd rs1 rs2) s = .next { s with
          x := s.x.set rd.val q, result := q.setWidth 32, inv := m, invValid := true, lastErr := 0#4, active := none })

/-- 40_field.md R114: GINV builds the table first if it must, raises DIV_BY_ZERO on 0, and otherwise writes the inverse. -/
def Obligations.GinvInvertsOrRaises : Prop :=
  ∀ (rd rs1 : RegIdx) (z : BitVec 16) (s : State), s.TableSound →
    decode (0x14#8 ++ BitVec.ofNat 4 rd ++ BitVec.ofNat 4 rs1 ++ z) =
      (if z = 0#16 then .command (.ginv rd rs1) else .illegal .mustBeZero) ∧ ginv 1#8 = 1#8 ∧
    ∃ m, InverseTable m ∧ (s.invValid = true → m = s.inv) ∧
      (s.reg rs1 = 0#8 → exec (.ginv rd rs1) s = .next { s with
        inv := m, invValid := true, lastErr := 0x1#4, stickyErr := true, active := none }) ∧
      (s.reg rs1 ≠ 0#8 → ∃ v, v = ginv (s.reg rs1) ∧ gmul (s.reg rs1) v = 1#8 ∧ ginv v = s.reg rs1 ∧
        exec (.ginv rd rs1) s = .next { s with
          x := s.x.set rd.val v, result := v.setWidth 32, inv := m, invValid := true, lastErr := 0#4, active := none })

/-- 40_field.md R115: GADDI, which with imm = 0 copies. -/
def Obligations.GaddiXorsAnImmediate : Prop :=
  ∀ (rd rs1 : RegIdx) (imm : Byte) (z : BitVec 8) (s : State),
    decode (0x18#8 ++ BitVec.ofNat 4 rd ++ BitVec.ofNat 4 rs1 ++ z ++ imm) =
      (if z = 0#8 then .command (.gaddi rd rs1 imm) else .illegal .mustBeZero) ∧
    exec (.gaddi rd rs1 imm) s = .next { s with
      x := s.x.set rd.val (s.reg rs1 ^^^ imm), result := (s.reg rs1 ^^^ imm).setWidth 32, lastErr := 0#4, active := none } ∧
    s.reg rs1 ^^^ 0#8 = s.reg rs1

/-- 40_field.md R116: GMULI, which with imm = 0 gives 0 and with imm = 1 copies; it never builds the table. -/
def Obligations.GmuliMultipliesByAnImmediate : Prop :=
  ∀ (rd rs1 : RegIdx) (imm : Byte) (z : BitVec 8) (s : State),
    decode (0x1A#8 ++ BitVec.ofNat 4 rd ++ BitVec.ofNat 4 rs1 ++ z ++ imm) =
      (if z = 0#8 then .command (.gmuli rd rs1 imm) else .illegal .mustBeZero) ∧
    exec (.gmuli rd rs1 imm) s = .next { s with
      x := s.x.set rd.val (gmul (s.reg rs1) imm), result := (gmul (s.reg rs1) imm).setWidth 32,
      lastErr := 0#4, active := none } ∧
    gmul (s.reg rs1) 0#8 = 0#8 ∧ gmul (s.reg rs1) 1#8 = s.reg rs1 ∧ gmul 0x80#8 0x02#8 = 0x1B#8

/-- 40_field.md R117: GLI. -/
def Obligations.GliLoadsAnImmediate : Prop :=
  ∀ (rd : RegIdx) (imm : Byte) (z : BitVec 12) (s : State),
    decode (0x1C#8 ++ BitVec.ofNat 4 rd ++ z ++ imm) =
      (if z = 0#12 then .command (.gli rd imm) else .illegal .mustBeZero) ∧
    exec (.gli rd imm) s = .next { s with
      x := s.x.set rd.val imm, result := imm.setWidth 32, lastErr := 0#4, active := none }

/-! ### Polynomial evaluator -/

/-- 42_polynomial.md R174: PCSET stores its value at COEF[idx]; every other entry, every register and RESULT stay. A store to
entry 255 changes no evaluation. -/
def Obligations.PcsetStoresAnImmediate : Prop :=
  ∀ (idx val : Byte) (z : BitVec 8) (s : State), s.coef.wf = true →
    decode (0x20#8 ++ val ++ z ++ idx) = (if z = 0#8 then .command (.pcset idx val) else .illegal .mustBeZero) ∧
    ∃ t, exec (.pcset idx val) s = .next t ∧ t = { s with coef := t.coef, lastErr := 0#4, active := none } ∧
      (∀ a, t.coef.read a = if a = idx.toNat then val else s.coef.read a) ∧
      (idx = 0xFF#8 → ∀ len pt : Byte, geval t.coef len.toNat pt = geval s.coef len.toNat pt)

/-- 42_polynomial.md R175: PCST stores x[rs1] at COEF[idx]; every other entry, every register and RESULT stay. -/
def Obligations.PcstStoresARegister : Prop :=
  ∀ (idx : Byte) (rs1 : RegIdx) (z : BitVec 4) (z' : BitVec 8) (s : State), s.coef.wf = true →
    decode (0x21#8 ++ z ++ BitVec.ofNat 4 rs1 ++ z' ++ idx) =
      (if z = 0#4 ∧ z' = 0#8 then .command (.pcst idx rs1) else .illegal .mustBeZero) ∧
    ∃ t, exec (.pcst idx rs1) s = .next t ∧ t = { s with coef := t.coef, lastErr := 0#4, active := none } ∧
      ∀ a, t.coef.read a = if a = idx.toNat then s.reg rs1 else s.coef.read a

/-- 42_polynomial.md R176: PCLD; an entry never written since reset reads 0x00. -/
def Obligations.PcldLoadsACoefficient : Prop :=
  ∀ (rd : RegIdx) (idx : Byte) (z : BitVec 12) (s : State),
    decode (0x22#8 ++ BitVec.ofNat 4 rd ++ z ++ idx) =
      (if z = 0#12 then .command (.pcld rd idx) else .illegal .mustBeZero) ∧
    exec (.pcld rd idx) s = .next { s with
      x := s.x.set rd.val (s.coef.read idx.toNat), result := (s.coef.read idx.toNat).setWidth 32,
      lastErr := 0#4, active := none } ∧
    State.reset.coef.read idx.toNat = 0x00#8

/-- 42_polynomial.md R177: PEVAL, with its corner cases; COEF is not changed and the table not built. -/
def Obligations.PevalEvaluatesAtARegister : Prop :=
  ∀ (rd rs1 : RegIdx) (len : Byte) (z : BitVec 8) (s : State),
    decode (0x28#8 ++ BitVec.ofNat 4 rd ++ BitVec.ofNat 4 rs1 ++ z ++ len) =
      (if z = 0#8 then .command (.peval rd rs1 len) else .illegal .mustBeZero) ∧
    exec (.peval rd rs1 len) s = .next { s with
      x := s.x.set rd.val (geval s.coef len.toNat (s.reg rs1)),
      result := (geval s.coef len.toNat (s.reg rs1)).setWidth 32, lastErr := 0#4, active := none } ∧
    (len = 0#8 → geval s.coef len.toNat (s.reg rs1) = 0#8) ∧
    (len = 1#8 → geval s.coef len.toNat (s.reg rs1) = s.coef.read 0) ∧
    (s.reg rs1 = 0#8 → len ≠ 0#8 → geval s.coef len.toNat (s.reg rs1) = s.coef.read 0)

/-- 42_polynomial.md R178: PEVALI, any byte being a point. -/
def Obligations.PevaliEvaluatesAtAnImmediate : Prop :=
  ∀ (rd : RegIdx) (pt len : Byte) (z : BitVec 4) (s : State),
    decode (0x29#8 ++ BitVec.ofNat 4 rd ++ z ++ pt ++ len) =
      (if z = 0#4 then .command (.pevali rd pt len) else .illegal .mustBeZero) ∧
    exec (.pevali rd pt len) s = .next { s with
      x := s.x.set rd.val (geval s.coef len.toNat pt), result := (geval s.coef len.toNat pt).setWidth 32,
      lastErr := 0#4, active := none } ∧
    (len = 0#8 → geval s.coef len.toNat pt = 0#8) ∧
    (len = 1#8 → geval s.coef len.toNat pt = s.coef.read 0) ∧
    (pt = 0#8 → len ≠ 0#8 → geval s.coef len.toNat pt = s.coef.read 0)

/-- 42_polynomial.md R171: geval is the sum of COEF[i] * x^i over i < len, with x^0 = 1 for every x. -/
def Obligations.GevalIsTheSumOfPowers : Prop :=
  ∀ (coef : Memory) (pt : Byte), geval coef 0 pt = 0#8 ∧ gpow pt 0 = 1#8 ∧
    ∀ len, geval coef (len + 1) pt = gadd (geval coef len pt) (gmul (coef.read len) (gpow pt len))

/-- 42_polynomial.md R172: Horner's form gives the same value for every length and point. -/
def Obligations.HornerGivesTheSameValue : Prop :=
  ∀ (coef : Memory) (len : Nat) (pt : Byte), gevalHorner coef len pt = geval coef len pt

/-- 42_polynomial.md R173: the corner cases of geval. -/
def Obligations.GevalCornerCases : Prop :=
  ∀ coef : Memory,
    (∀ pt, geval coef 0 pt = 0#8) ∧
    (∀ pt, geval coef 1 pt = coef.read 0) ∧
    (∀ len, 1 ≤ len → geval coef len 0#8 = coef.read 0) ∧
    (∀ len, geval coef len 1#8 = (List.range len).foldl (fun acc i => acc ^^^ coef.read i) 0#8)

/-! ### Lagrange reconstruction -/

/-- 43_lagrange.md R205: LPSET, for which every word with op 0x30 is legal; every other entry, every register and RESULT stay. A
store to entry 255 changes no reconstruction. -/
def Obligations.LpsetStoresAPoint : Prop :=
  ∀ (idx vx vy : Byte) (s : State), s.px.wf = true → s.py.wf = true →
    decode (0x30#8 ++ vx ++ vy ++ idx) = .command (.lpset idx vx vy) ∧
    ∃ t, exec (.lpset idx vx vy) s = .next t ∧ t = { s with px := t.px, py := t.py, lastErr := 0#4, active := none } ∧
      (∀ a, t.px.read a = if a = idx.toNat then vx else s.px.read a) ∧
      (∀ a, t.py.read a = if a = idx.toNat then vy else s.py.read a) ∧
      (idx = 0xFF#8 → ∀ (inv : Memory) (n : Byte), glagr inv t.px t.py n.toNat = glagr inv s.px s.py n.toNat)

/-- 43_lagrange.md R206: LPST stores x[rs1] and x[rs2] as a point; every other entry, every register and RESULT stay. -/
def Obligations.LpstStoresTwoRegisters : Prop :=
  ∀ (idx : Byte) (rs1 rs2 : RegIdx) (z z' : BitVec 4) (s : State), s.px.wf = true → s.py.wf = true →
    decode (0x31#8 ++ z ++ BitVec.ofNat 4 rs1 ++ BitVec.ofNat 4 rs2 ++ z' ++ idx) =
      (if z = 0#4 ∧ z' = 0#4 then .command (.lpst idx rs1 rs2) else .illegal .mustBeZero) ∧
    ∃ t, exec (.lpst idx rs1 rs2) s = .next t ∧ t = { s with px := t.px, py := t.py, lastErr := 0#4, active := none } ∧
      (∀ a, t.px.read a = if a = idx.toNat then s.reg rs1 else s.px.read a) ∧
      (∀ a, t.py.read a = if a = idx.toNat then s.reg rs2 else s.py.read a)

/-- 43_lagrange.md R207, R208: LPLDX and LPLDY; an entry never written since reset reads 0x00. -/
def Obligations.PointLoadsReadTheirMemory : Prop :=
  ∀ (rd : RegIdx) (idx : Byte) (z : BitVec 12) (s : State),
    decode (0x32#8 ++ BitVec.ofNat 4 rd ++ z ++ idx) =
      (if z = 0#12 then .command (.lpldx rd idx) else .illegal .mustBeZero) ∧
    decode (0x33#8 ++ BitVec.ofNat 4 rd ++ z ++ idx) =
      (if z = 0#12 then .command (.lpldy rd idx) else .illegal .mustBeZero) ∧
    exec (.lpldx rd idx) s = .next { s with
      x := s.x.set rd.val (s.px.read idx.toNat), result := (s.px.read idx.toNat).setWidth 32,
      lastErr := 0#4, active := none } ∧
    exec (.lpldy rd idx) s = .next { s with
      x := s.x.set rd.val (s.py.read idx.toNat), result := (s.py.read idx.toNat).setWidth 32,
      lastErr := 0#4, active := none } ∧
    State.reset.px.read idx.toNat = 0x00#8 ∧ State.reset.py.read idx.toNat = 0x00#8

/-- 43_lagrange.md R209: LAGR builds the table first if it must, raises DIV_BY_ZERO when two of the first n points share an x
value, and otherwise writes the value of the Lagrange formula; n = 0 gives 0 and n = 1 gives PY[0]. -/
def Obligations.LagrReconstructsOrRaises : Prop :=
  ∀ (rd : RegIdx) (n : Byte) (z : BitVec 12) (s : State), s.TableSound →
    decode (0x38#8 ++ BitVec.ofNat 4 rd ++ z ++ n) =
      (if z = 0#12 then .command (.lagr rd n) else .illegal .mustBeZero) ∧
    ∃ m, InverseTable m ∧ (s.invValid = true → m = s.inv) ∧
      (DuplicateX s.px n.toNat → exec (.lagr rd n) s = .next { s with
        inv := m, invValid := true, lastErr := 0x1#4, stickyErr := true, active := none }) ∧
      (¬ DuplicateX s.px n.toNat → ∃ v, v = lagrangeValue s.px s.py n.toNat ∧
        (n = 0#8 → v = 0#8) ∧ (n = 1#8 → v = s.py.read 0) ∧
        exec (.lagr rd n) s = .next { s with
          x := s.x.set rd.val v, result := v.setWidth 32, inv := m, invValid := true, lastErr := 0#4, active := none })

/-- 43_lagrange.md R202: glagr raises DIV_BY_ZERO exactly on a duplicate x value, whatever the y values, and otherwise no divisor
is 0 and a value is returned. -/
def Obligations.GlagrRaisesExactlyOnDuplicates : Prop :=
  ∀ (inv px py : Memory) (n : Nat),
    (glagr inv px py n = .error .divByZero ↔ DuplicateX px n) ∧
    (¬ DuplicateX px n → (∃ v, glagr inv px py n = .ok v) ∧
      ∀ j k, j < n → k < n → j ≠ k → gsub (px.read k) (px.read j) ≠ 0#8)

/-- 43_lagrange.md R203, R204: with a built table and no duplicate, a point at x = 0 gives its y; no point gives 0 and one point
its y. -/
def Obligations.GlagrOnSpecialPointSets : Prop :=
  ∀ (inv px py : Memory), InverseTable inv →
    glagr inv px py 0 = .ok 0#8 ∧ glagr inv px py 1 = .ok (py.read 0) ∧
    ∀ n k, k < n → ¬ DuplicateX px n → px.read k = 0#8 → glagr inv px py n = .ok (py.read k)

/-- 43_lagrange.md R210, correctness: LAGR over n >= T points of distinct x on the polynomial of length T in COEF gives
COEF[0]. -/
def Obligations.ReconstructionGivesTheSecret : Prop :=
  ∀ (s : State) (rd : RegIdx) (n : Byte) (T : Nat), s.TableSound → 1 ≤ T → T ≤ n.toNat → ¬ DuplicateX s.px n.toNat →
    (∀ j, j < n.toNat → s.py.read j = geval s.coef T (s.px.read j)) →
    ∃ t, exec (.lagr rd n) s = .next t ∧ t.reg rd = s.coef.read 0 ∧ t.result = (s.coef.read 0).setWidth 32 ∧ t.lastErr = 0#4

/-- 43_lagrange.md R210, order: the same points in another order reconstruct the same value (or raise the same error). -/
def Obligations.ReconstructionIgnoresPointOrder : Prop :=
  ∀ (inv px py px' py' : Memory) (n : Nat) (p : Equiv.Perm (Fin n)), InverseTable inv →
    (∀ j : Fin n, px'.read j = px.read (p j) ∧ py'.read j = py.read (p j)) →
    glagr inv px' py' n = glagr inv px py n

/-! ### Errors and frames -/

/-- 60_exceptions.md R302: an illegal word writes LAST_ERR and STICKY_ERR and completes; nothing else changes, and no build
starts. -/
def Obligations.IllegalWordOnlyRaises : Prop :=
  ∀ (s : State) (c : InProgress) (r : IllegalReason), s.active = some c → decode c.word = .illegal r →
    runCommand s = .next { s with lastErr := 0x2#4, stickyErr := true, active := none } ∧ s.startBuild = s

/-- 60_exceptions.md R301: DIV_BY_ZERO is raised by exactly GDIV, GINV and LAGR on their conditions, and records nothing further
(the build that came first stays). -/
def Obligations.DivByZeroIsRaisedExactlyThen : Prop :=
  ∀ (i : Instr) (s : State), ∃ t, exec i s = .next t ∧
    (t.lastErr = 0x1#4 ↔ DividesByZero s i) ∧
    (t.lastErr = 0x1#4 →
      t = { s with inv := t.inv, invValid := true, lastErr := 0x1#4, stickyErr := true, active := none })

/-- The frame of every command: registers but its destination, COEF and the point memories but the entries it stores to, the
table and INV_VALID but for a build, RESULT of a command without destination, everything on an error, STICKY_ERR on success, and
the port's side of the state are unchanged (10_state.md R24, R27, R29, R34, R35, 60_exceptions.md R305). -/
def Obligations.CommandsChangeNothingElse : Prop :=
  ∀ (i : Instr) (s t : State), s.MemoriesCanonical → exec i s = .next t →
    (∀ r, destReg i ≠ some r → t.reg r = s.reg r) ∧
    (∀ a, (∀ idx, coefStore i = some idx → a ≠ idx.toNat) → t.coef.read a = s.coef.read a) ∧
    (∀ a, (∀ idx, pointStore i = some idx → a ≠ idx.toNat) → t.px.read a = s.px.read a ∧ t.py.read a = s.py.read a) ∧
    (needsTable i.opcode = false → t.inv = s.inv ∧ t.invValid = s.invValid) ∧
    (s.invValid = true → t.inv = s.inv ∧ t.invValid = true) ∧
    (destReg i = none → t.result = s.result) ∧
    (t.lastErr ≠ 0#4 → t.x = s.x ∧ t.result = s.result ∧ t.coef = s.coef ∧ t.px = s.px ∧ t.py = s.py) ∧
    (t.lastErr = 0#4 → t.stickyErr = s.stickyErr) ∧ (t.lastErr ≠ 0#4 → t.stickyErr = true) ∧
    t.busy = false ∧ t.held = s.held ∧ t.inputs = s.inputs ∧ t.replies = s.replies

/-- A command runs as if no error had occurred, whatever the error fields hold: they change only STICKY_ERR of the next state
(60_exceptions.md R300). -/
def Obligations.ErrorsAreNotFatal : Prop :=
  ∀ (i : Instr) (s : State) (e : BitVec 4) (k : Bool), ∃ t, exec i s = .next t ∧
    exec i { s with lastErr := e, stickyErr := k } =
      .next { t with stickyErr := if t.lastErr = 0#4 then k else true }

/-- Until a command completes none of its writes can be seen: a step that leaves it in progress leaves x, COEF, PX, PY, RESULT and
the word itself unchanged (00_scope.md R12, 20_memory.md R56). -/
def Obligations.NoWriteIsVisibleBeforeCompletion : Prop :=
  ∀ s t : State, s.busy = true → step s = .next t → t.busy = true →
    t.x = s.x ∧ t.coef = s.coef ∧ t.px = s.px ∧ t.py = s.py ∧ t.result = s.result ∧
    t.active.map (fun c => c.word) = s.active.map (fun c => c.word)

/-! ### Reset and the host port -/

/-- 70_reset_and_hazards.md R400, R401: what power-on reset and soft reset leave, and that a step that meets the power-on reset
input leaves the reset state. That this reset is one event and drops a held access is the model's choice, log 8; the content of
INV is left open. -/
def Obligations.ResetsLeaveTheResetState : Prop :=
  (∀ s t : State, t = State.reset ∨ t = s.softReset ∨ t = s.powerOn →
    (∀ r, t.reg r = 0x00#8) ∧ (∀ a, t.coef.read a = 0x00#8) ∧ (∀ a, t.px.read a = 0x00#8) ∧ (∀ a, t.py.read a = 0x00#8) ∧
    t.invValid = false ∧ t.result = 0x00000000#32 ∧ t.lastErr = 0x0#4 ∧ t.stickyErr = false ∧
    t.busy = false ∧ t.invBuilding = false) ∧
  (∀ (s : State) (rest : List Input), s.busy = true ∨ s.held = none → s.inputs = .powerOnReset :: rest →
    ∃ t, step s = .next t ∧ t = { State.reset with inv := t.inv, inputs := rest, replies := s.replies })

/-- 70_reset_and_hazards.md R402: a CTRL write with SRST = 1 is performed at once, also while a command is in progress, abandons
it and puts every piece of state into its reset value (the content of INV is left open); a held CMD write is then accepted and a held
RESULT read returns 0. -/
def Obligations.SoftResetAbandonsTheCommand : Prop :=
  ∀ (s : State) (v : Word) (rest : List Input), s.busy = true ∨ s.held = none → v.getLsbD 0 = true →
    s.inputs = .access (ctrlWrite v) :: rest →
    ∃ t, step s = .next t ∧
      t = { State.reset with inv := t.inv, held := s.held, inputs := rest, replies := s.replies ++ [.written] } ∧
      (∀ w, s.held = some (cmdWrite w) → step t = .next { t with
        held := none, active := some { word := w, building := false }, replies := t.replies ++ [.written] }) ∧
      (s.held = some resultRead → step t = .next { t with held := none, replies := t.replies ++ [.data 0x00000000#32] })

/-- 20_memory.md R53: an access of width 1 or 2, or of width 4 at an offset that is no multiple of 4, gets a bus error at once,
whatever it addresses and even while a command is in progress, and has no other effect. -/
def Obligations.IllegalAccessesGetABusError : Prop :=
  ∀ (s : State) (a : HostAccess) (rest : List Input), a.width ≠ .word ∨ a.offset.toNat % 4 ≠ 0 →
    s.busy = true ∨ s.held = none → s.inputs = .access a :: rest →
    step s = .next { s with inputs := rest, replies := s.replies ++ [.busError] }

/-- 20_memory.md R51 with 10_state.md R32, R33: what a legal read of each offset returns, and that a legal write to an offset
other than CMD's and CTRL's changes nothing; a read changes nothing. A step performs the next access at once when BUSY does not
hold it (R59; the order of events is the model's own, log 1 and log 5), and an idle block with nothing presented keeps all its
state (60_exceptions.md R315), also where an instant of a command is presented to it (log 1). -/
def Obligations.WindowReadsAndIgnoredWrites : Prop :=
  (∀ (s : State) (off : Byte), off.toNat % 4 = 0 →
    s.perform { width := .word, offset := off, op := .read } = { s with replies := s.replies ++ [.data
      (if off = 0x00#8 then 0x47460100#32 else if off = 0x04#8 then 0x00FF101B#32 else if off = 0x08#8 then 0#32
       else if off = 0x0C#8 then s.status else if off = 0x10#8 then s.result else 0#32)] } ∧
    ∀ v, off ≠ 0x08#8 → off ≠ 0x14#8 →
      s.perform { width := .word, offset := off, op := .write v } = { s with replies := s.replies ++ [.written] }) ∧
  (∀ (s : State) (a : HostAccess) (rest : List Input),
    (s.busy = true ∧ a.heldByBusy = false) ∨ (s.busy = false ∧ s.held = none) → s.inputs = .access a :: rest →
    step s = .next ({ s with inputs := rest }.perform a)) ∧
  (∀ s : State, s.busy = false → s.held = none →
    (s.inputs = [] → step s = .next s) ∧
    (∀ p rest, s.inputs = .progress p :: rest → step s = .next { s with inputs := rest }))

/-- 10_state.md R25: the fields of STATUS. -/
def Obligations.StatusHoldsItsFields : Prop :=
  ∀ s : State, s.status.getLsbD 0 = s.busy ∧ s.status.getLsbD 1 = s.invValid ∧ s.status.getLsbD 2 = s.invBuilding ∧
    s.status.getLsbD 3 = s.stickyErr ∧ s.status.extractLsb' 4 4 = 0#4 ∧ s.status.extractLsb' 8 4 = s.lastErr ∧
    s.status.extractLsb' 12 20 = 0#20 ∧ State.reset.status = 0#32

/-- 10_state.md R31: a CTRL write is never held by BUSY; SRST = 1 resets the block, CLRERR = 1 alone clears the two error fields,
and the other bits do nothing; a read of CTRL returns 0. The content of INV after the reset is left open. -/
def Obligations.CtrlWritesActAtOnce : Prop :=
  ∀ (s : State) (v : Word) (rest : List Input), s.busy = true ∨ s.held = none →
    s.inputs = .access (ctrlWrite v) :: rest →
    (∃ inv, step s = .next (if v.getLsbD 0 then { State.reset with
        inv := inv, held := s.held, inputs := rest, replies := s.replies ++ [.written] }
      else if v.getLsbD 1 then { s with
        lastErr := 0x0#4, stickyErr := false, inputs := rest, replies := s.replies ++ [.written] }
      else { s with inputs := rest, replies := s.replies ++ [.written] })) ∧
    s.readPort (portRegAt 0x14#8) = 0#32

/-- 70_reset_and_hazards.md R405: a CMD write performed while BUSY = 1 is held, stays held until the command in progress
completes, and its word is then accepted; a second one waits, neither dropped nor merged (where it waits, and that a held access
comes before later ones, is the model's reading, log 5); one that finds BUSY = 0 is accepted at once. -/
def Obligations.CommandWritesAreHeldWhileBusy : Prop :=
  (∀ (s : State) (w : Word) (rest : List Input), s.busy = true → s.held = none → s.inputs = .access (cmdWrite w) :: rest →
    step s = .next { s with held := some (cmdWrite w), inputs := rest }) ∧
  (∀ (s t : State) (a : HostAccess), s.busy = true → s.held = some a → step s = .next t → t.busy = true → t.held = some a) ∧
  (∀ (s : State) (a : HostAccess) (w : Word) (rest : List Input), s.busy = true → s.held = some a →
    s.inputs = .access (cmdWrite w) :: rest → ∃ t, step s = .next t ∧ t.inputs = s.inputs ∧ t.held = s.held) ∧
  (∀ (s : State) (w : Word), s.busy = false → s.held = some (cmdWrite w) →
    step s = .next { s with
      held := none, active := some { word := w, building := false }, replies := s.replies ++ [.written] }) ∧
  (∀ (s : State) (w : Word) (rest : List Input), s.busy = false → s.held = none → s.inputs = .access (cmdWrite w) :: rest →
    step s = .next { s with
      inputs := rest, active := some { word := w, building := false }, replies := s.replies ++ [.written] })

/-- 70_reset_and_hazards.md R406: a RESULT read made while BUSY = 1 is held, and once BUSY = 0 the next step answers it with
RESULT; so a host that writes a command and then reads RESULT reads what that command left. The order of events is the model's
own (log 1), and that a held read comes before later accesses is its reading (log 5). -/
def Obligations.ResultReadWaitsForTheCommand : Prop :=
  (∀ (s : State) (rest : List Input), s.busy = true → s.held = none → s.inputs = .access resultRead :: rest →
    step s = .next { s with held := some resultRead, inputs := rest }) ∧
  (∀ s : State, s.busy = false → s.held = some resultRead →
    step s = .next { s with held := none, replies := s.replies ++ [.data s.result] }) ∧
  (∀ (s : State) (w : Word) (rest : List Input), s.busy = false → s.held = none →
    s.inputs = .access (cmdWrite w) :: .access resultRead :: .progress .completes :: rest →
    ∃ t, Host.Core.run Sys2Proof.core 2 s = .next t ∧ t.busy = true ∧ t.held = some resultRead ∧ t.replies = s.replies ++ [.written] ∧
      Host.Core.run Sys2Proof.core 4 s = .next { afterCommand s w with
        inputs := rest, replies := s.replies ++ [.written, .data (afterCommand s w).result] })

/-- A STATUS read is never held: while a command is in progress it answers at once with BUSY = 1, the build bits of that instant
and the error fields the previous command left, and changes nothing (70_reset_and_hazards.md R407). -/
def Obligations.StatusReadsAreNeverHeld : Prop :=
  ∀ (s : State) (rest : List Input), s.busy = true → s.inputs = .access statusRead :: rest →
    ∃ v : Word, step s = .next { s with inputs := rest, replies := s.replies ++ [.data v] } ∧
      v.getLsbD 0 = true ∧ v.getLsbD 1 = s.invValid ∧ v.getLsbD 2 = s.invBuilding ∧ v.getLsbD 3 = s.stickyErr ∧
      v.extractLsb' 8 4 = s.lastErr

/-- Every step of every state answers a next state, and a command in progress is over after at most one step more than there are
events presented: no command hangs the block (70_reset_and_hazards.md R408). The bound is the model's own: its events are a finite
list, and with none left the command completes (log 1). -/
def Obligations.EveryCommandCompletes : Prop :=
  (∀ s : State, ∃ t, step s = .next t) ∧
  ∀ s : State, ∃ k t, k ≤ s.inputs.length + 1 ∧ Host.Core.run Sys2Proof.core k s = .next t ∧ t.busy = false

/-! ### Steps and runs -/

/-- A step that completes the command in progress runs the command its word decodes to, or raises ILLEGAL_CMD: when the order of
events says so, when nothing else is left to happen, and when a second access waits behind a held one (30_encoding.md R78; the
order of events is the model's own, log 1 and log 5). -/
def Obligations.StepRunsTheDecodedCommand : Prop :=
  ∀ (s : State) (c : InProgress), s.active = some c →
    (∀ i, decode c.word = .command i →
      (s.inputs = [] → step s = exec i s) ∧
      (∀ rest, s.inputs = .progress .completes :: rest → step s = exec i { s with inputs := rest }) ∧
      (∀ a b rest, s.held = some a → b.heldByBusy = true → s.inputs = .access b :: rest → step s = exec i s)) ∧
    (∀ r rest, decode c.word = .illegal r → s.inputs = .progress .completes :: rest →
      step s = .next { s with inputs := rest, lastErr := 0x2#4, stickyErr := true, active := none })

/-- A command word placed by withFetchWord is read by the decoder and run by the very next step, from every state (the model's
choice, log 2). -/
def Obligations.PlacedWordRunsNext : Prop :=
  ∀ (i : Instr) (s : State),
    decodeTableWord 32 (encode i).toNat = some i ∧
    step (s.withFetchWord 32 (encode i).toNat) = exec i { s with active := some { word := encode i, building := false } }

/-- The build of the command in progress begins and ends where the order of events says so: INV_BUILDING is 1 between the two,
INV_VALID 1 from its end (41_inverse_cache.md R153, 70_reset_and_hazards.md R407). Which of these instants are visible changes
nothing in the state the command completes with (30_encoding.md R78). The order of events is the model's own, log 1, and the table
is filled at the end of the build, log 4. -/
def Obligations.VisibleInstantsDoNotChangeTheOutcome : Prop :=
  (∀ s : State, s.BuildSound → runCommand s.startBuild = runCommand s ∧ runCommand s.endBuild = runCommand s) ∧
  (∀ (s : State) (c : InProgress) (i : Instr) (rest : List Input), s.active = some c → decode c.word = .command i →
    s.inputs = .progress .buildStarts :: rest →
    step s = .next (if s.invValid = false ∧ (i.opcode = .invb ∨ i.opcode = .ginv ∨ i.opcode = .gdiv ∨ i.opcode = .lagr)
      then { s with inputs := rest, active := some { word := c.word, building := true } } else { s with inputs := rest })) ∧
  (∀ (s : State) (c : InProgress) (rest : List Input), s.active = some c → s.inputs = .progress .buildEnds :: rest →
    step s = .next (if c.building = true
      then { s with inputs := rest, inv := builtTable, invValid := true, active := some { word := c.word, building := false } }
      else { s with inputs := rest }))

/-- Command words written to CMD back to back run one at a time in order, each from the state the one before it left
(20_memory.md R58, 70_reset_and_hazards.md R410). That the words are presented as inputs is log 2, where a second write waits is
log 5, and the answers recorded are log 6. -/
def Obligations.CommandsRunOneAtATimeInOrder : Prop :=
  ∀ (s : State) (ws : List Word), s.busy = false → s.held = none → s.inputs = [] →
    ∃ k, Host.Core.run Sys2Proof.core k (s.presentCommands ws) =
      .next { afterCommands s ws with replies := s.replies ++ List.replicate ws.length .written }

/-- The state after reset is sound. -/
def Obligations.ResetIsSound : Prop := State.reset.Sound

/-- Every step keeps the invariant of the block: canonical memories, a sound inverse table, RESULT bits 31:8 zero, legal error
codes, a build only where one may run, and only held accesses in the port (10_state.md R24, R26, R27, 41_inverse_cache.md
R151). -/
def Obligations.StepKeepsSound : Prop :=
  ∀ s t : State, s.Sound → step s = .next t → t.Sound

/-- A run from any sound state, whatever inputs it is given, never stops and stays sound: no behaviour of the block is stuck
(60_exceptions.md R300, 70_reset_and_hazards.md R408). -/
def Obligations.SoundStatesRunSafely : Prop :=
  ∀ s : State, s.Sound → SafeFrom s
end

