-- ==== Sys2Proof/Laws/Decode.lean ====
section
/-! SUPPORT. Decoding and encoding: the rows of the opcode map and the decode check said once. -/

namespace Sys2Proof

theorem Opcode.mem_all (o : Opcode) : o ∈ Opcode.all := by cases o <;> decide

/-- Each opcode is in one row only (30_encoding.md R74). -/
theorem Opcode.code_injective {o p : Opcode} (h : o.code = p.code) : o = p := by
  revert h; cases o <;> cases p <;> decide

/-- A row is found by its own opcode. -/
@[simp] theorem Opcode.ofCode_code (o : Opcode) : Opcode.ofCode o.code = some o := by cases o <;> decide

/-- What ofCode finds is the row of the opcode. -/
theorem Opcode.code_of_ofCode {b : Byte} {o : Opcode} (h : Opcode.ofCode b = some o) : o.code = b := by
  have := List.find?_some h
  simpa using this

/-- The decode check of a word whose opcode is a row's (30_encoding.md R78). -/
theorem decode_of_fieldOp {w : Word} {o : Opcode} (h : fieldOp w = o.code) :
    decode w = if w &&& o.mask = o.pattern then .command (o.operands w) else .illegal .mustBeZero := by
  simp [decode, h]

/-- The inversion of a decoded command: its row, its mask and its operands. -/
theorem decode_eq_command {w : Word} {i : Instr} (h : decode w = .command i) :
    ∃ o : Opcode, fieldOp w = o.code ∧ w &&& o.mask = o.pattern ∧ i = o.operands w := by
  unfold decode at h
  split at h
  · cases h
  · rename_i o ho
    split at h
    · rename_i hm
      exact ⟨o, (Opcode.code_of_ofCode ho).symm, hm, by cases h; rfl⟩
    · cases h

/-- The operands of a row make a command of that row. -/
@[simp] theorem Opcode.opcode_operands (o : Opcode) (w : Word) : (o.operands w).opcode = o := by cases o <;> rfl

/-- Byte lanes are little-endian: offset +0 is bits 7:0, offset +3 bits 31:24 (20_memory.md R54). -/
theorem wordOfLanes_lanes (b0 b1 b2 b3 : Byte) :
    (wordOfLanes b0 b1 b2 b3).extractLsb' 0 8 = b0 ∧ (wordOfLanes b0 b1 b2 b3).extractLsb' 8 8 = b1 ∧
    (wordOfLanes b0 b1 b2 b3).extractLsb' 16 8 = b2 ∧ (wordOfLanes b0 b1 b2 b3).extractLsb' 24 8 = b3 := by
  refine ⟨?_, ?_, ?_, ?_⟩ <;>
  · ext i hi
    simp only [wordOfLanes, BitVec.getElem_extractLsb', BitVec.getLsbD_append]
    repeat rw [if_neg (by omega)]
    try rw [if_pos (by omega)]
    rw [← BitVec.getLsbD_eq_getElem]
    congr 1
    try omega

/-- The top byte of a word laid out with a byte on top is that byte (30_encoding.md R70). -/
theorem fieldOp_append (c : Byte) (v : BitVec 24) : fieldOp (c ++ v) = c := by
  ext i hi
  simp only [fieldOp, BitVec.getElem_extractLsb', BitVec.getLsbD_append]
  rw [if_neg (by omega), ← BitVec.getLsbD_eq_getElem]
  congr 1
  omega

@[simp] theorem fieldOp_layoutR (o : Opcode) (rd rs1 rs2 : RegIdx) : fieldOp (layoutR o rd rs1 rs2) = o.code := by
  ext i hi
  simp only [fieldOp, layoutR, BitVec.getElem_extractLsb', BitVec.getLsbD_append]
  repeat rw [if_neg (by omega)]
  rw [← BitVec.getLsbD_eq_getElem]
  congr 1
  omega

@[simp] theorem fieldOp_layoutU (o : Opcode) (rd rs1 : RegIdx) : fieldOp (layoutU o rd rs1) = o.code := by
  ext i hi
  simp only [fieldOp, layoutU, BitVec.getElem_extractLsb', BitVec.getLsbD_append]
  repeat rw [if_neg (by omega)]
  rw [← BitVec.getLsbD_eq_getElem]
  congr 1
  omega

@[simp] theorem fieldOp_layoutI (o : Opcode) (rd rs1 : RegIdx) (imm : Byte) : fieldOp (layoutI o rd rs1 imm) = o.code := by
  ext i hi
  simp only [fieldOp, layoutI, BitVec.getElem_extractLsb', BitVec.getLsbD_append]
  repeat rw [if_neg (by omega)]
  rw [← BitVec.getLsbD_eq_getElem]
  congr 1
  omega

@[simp] theorem fieldOp_layoutL (o : Opcode) (rd : RegIdx) (imm : Byte) : fieldOp (layoutL o rd imm) = o.code := by
  ext i hi
  simp only [fieldOp, layoutL, BitVec.getElem_extractLsb', BitVec.getLsbD_append]
  repeat rw [if_neg (by omega)]
  rw [← BitVec.getLsbD_eq_getElem]
  congr 1
  omega

@[simp] theorem fieldOp_layoutE (o : Opcode) (rd : RegIdx) (ihi imm : Byte) : fieldOp (layoutE o rd ihi imm) = o.code := by
  ext i hi
  simp only [fieldOp, layoutE, BitVec.getElem_extractLsb', BitVec.getLsbD_append]
  repeat rw [if_neg (by omega)]
  rw [← BitVec.getLsbD_eq_getElem]
  congr 1
  omega

@[simp] theorem fieldOp_layoutS (o : Opcode) (itop imm : Byte) : fieldOp (layoutS o itop imm) = o.code := by
  ext i hi
  simp only [fieldOp, layoutS, BitVec.getElem_extractLsb', BitVec.getLsbD_append]
  repeat rw [if_neg (by omega)]
  rw [← BitVec.getLsbD_eq_getElem]
  congr 1
  omega

@[simp] theorem fieldOp_layoutP (o : Opcode) (itop ihi imm : Byte) : fieldOp (layoutP o itop ihi imm) = o.code := by
  ext i hi
  simp only [fieldOp, layoutP, BitVec.getElem_extractLsb', BitVec.getLsbD_append]
  repeat rw [if_neg (by omega)]
  rw [← BitVec.getLsbD_eq_getElem]
  congr 1
  omega

@[simp] theorem fieldOp_layoutMS (o : Opcode) (rs1 : RegIdx) (imm : Byte) : fieldOp (layoutMS o rs1 imm) = o.code := by
  ext i hi
  simp only [fieldOp, layoutMS, BitVec.getElem_extractLsb', BitVec.getLsbD_append]
  repeat rw [if_neg (by omega)]
  rw [← BitVec.getLsbD_eq_getElem]
  congr 1
  omega

@[simp] theorem fieldOp_layoutMP (o : Opcode) (rs1 rs2 : RegIdx) (imm : Byte) : fieldOp (layoutMP o rs1 rs2 imm) = o.code := by
  ext i hi
  simp only [fieldOp, layoutMP, BitVec.getElem_extractLsb', BitVec.getLsbD_append]
  repeat rw [if_neg (by omega)]
  rw [← BitVec.getLsbD_eq_getElem]
  congr 1
  omega

/-- The build runs inside INVB, GINV, GDIV and LAGR and no other row (30_encoding.md R78). -/
theorem Machine.needsTable_iff (o : Opcode) :
    Machine.needsTable o = true ↔ o = .invb ∨ o = .ginv ∨ o = .gdiv ∨ o = .lagr := by cases o <;> decide

end Sys2Proof
end

