-- ==== Sys2Proof/Laws/Evaluation.lean ====
section
/-! SUPPORT. What an evaluation reads: only the entries below its length or point count (10_state.md R34, R35). -/

namespace Sys2Proof.Machine

open Sys2Proof

theorem gevalLoop_congr {c c' : Memory} (pt : Byte) :
    ∀ (n i : Nat) (acc pw : Byte), (∀ k, i ≤ k → k < i + n → c.read k = c'.read k) →
      gevalLoop c pt n i acc pw = gevalLoop c' pt n i acc pw
  | 0, _, _, _, _ => rfl
  | n + 1, i, acc, pw, h => by
    simp only [gevalLoop]
    rw [h i (by omega) (by omega)]
    exact gevalLoop_congr pt n (i + 1) _ _ fun k hk hk' => h k (by omega) (by omega)

/-- geval of length n reads the first n coefficients and nothing else. -/
theorem geval_congr {c c' : Memory} {n : Nat} (pt : Byte) (h : ∀ k, k < n → c.read k = c'.read k) :
    geval c n pt = geval c' n pt := gevalLoop_congr pt n 0 _ _ fun k _ hk => h k (by omega)

/-- A sum or product over the first n entries depends only on its terms there. -/
theorem foldl_range_congr {α : Type} {f g : α → Nat → α} {n : Nat} (h : ∀ a k, k < n → f a k = g a k) (a : α) :
    (List.range n).foldl f a = (List.range n).foldl g a := by
  induction n with
  | zero => rfl
  | succ n ih =>
    simp only [List.range_succ, List.foldl_append, List.foldl_cons, List.foldl_nil]
    rw [ih fun a k hk => h a k (by omega), h _ n (by omega)]

/-- glagr of n points reads the first n points and nothing else of the point memories. -/
theorem glagr_congr {inv px py px' py' : Memory} {n : Nat} (hx : ∀ k, k < n → px.read k = px'.read k)
    (hy : ∀ k, k < n → py.read k = py'.read k) : glagr inv px py n = glagr inv px' py' n := by
  have hd : hasDuplicate px n = hasDuplicate px' n := by
    rw [Bool.eq_iff_iff]
    simp only [hasDuplicate, List.any_eq_true, List.mem_range]
    constructor <;> rintro ⟨j, hj, k, hk, h⟩ <;> refine ⟨j, hj, k, hk, ?_⟩ <;> simpa [hx j hj, hx k hk] using h
  have hs : lagrangeSum inv px py n = lagrangeSum inv px' py' n := by
    refine foldl_range_congr (fun acc j hj => ?_) _
    have ht : lagrangeTerm inv px py n j = lagrangeTerm inv px' py' n j := by
      simp only [lagrangeTerm, lagrangeFactor, hy j hj]
      exact foldl_range_congr (fun t k hk => by rw [hx k hk, hx j hj]) _
    rw [ht]
  simp only [glagr, hd, hs]

end Sys2Proof.Machine
end

