-- ==== Sys2Proof/Laws/State.lean ====
section
/-! SUPPORT. One lemma per field per update of the state, so that no proof unfolds a record update. -/

namespace Sys2Proof.Machine

open Sys2Proof

variable (s : State)

/-! ### setReg -/

@[simp] theorem State.setReg_x (r : RegIdx) (v : Byte) : (s.setReg r v).x = s.x.set r.val v r.isLt := rfl
@[simp] theorem State.setReg_coef (r : RegIdx) (v : Byte) : (s.setReg r v).coef = s.coef := rfl
@[simp] theorem State.setReg_px (r : RegIdx) (v : Byte) : (s.setReg r v).px = s.px := rfl
@[simp] theorem State.setReg_py (r : RegIdx) (v : Byte) : (s.setReg r v).py = s.py := rfl
@[simp] theorem State.setReg_inv (r : RegIdx) (v : Byte) : (s.setReg r v).inv = s.inv := rfl
@[simp] theorem State.setReg_invValid (r : RegIdx) (v : Byte) : (s.setReg r v).invValid = s.invValid := rfl
@[simp] theorem State.setReg_result (r : RegIdx) (v : Byte) : (s.setReg r v).result = s.result := rfl
@[simp] theorem State.setReg_lastErr (r : RegIdx) (v : Byte) : (s.setReg r v).lastErr = s.lastErr := rfl
@[simp] theorem State.setReg_stickyErr (r : RegIdx) (v : Byte) : (s.setReg r v).stickyErr = s.stickyErr := rfl
@[simp] theorem State.setReg_active (r : RegIdx) (v : Byte) : (s.setReg r v).active = s.active := rfl
@[simp] theorem State.setReg_held (r : RegIdx) (v : Byte) : (s.setReg r v).held = s.held := rfl
@[simp] theorem State.setReg_inputs (r : RegIdx) (v : Byte) : (s.setReg r v).inputs = s.inputs := rfl
@[simp] theorem State.setReg_replies (r : RegIdx) (v : Byte) : (s.setReg r v).replies = s.replies := rfl

/-! ### setResult -/

@[simp] theorem State.setResult_x (v : Byte) : (s.setResult v).x = s.x := rfl
@[simp] theorem State.setResult_coef (v : Byte) : (s.setResult v).coef = s.coef := rfl
@[simp] theorem State.setResult_px (v : Byte) : (s.setResult v).px = s.px := rfl
@[simp] theorem State.setResult_py (v : Byte) : (s.setResult v).py = s.py := rfl
@[simp] theorem State.setResult_inv (v : Byte) : (s.setResult v).inv = s.inv := rfl
@[simp] theorem State.setResult_invValid (v : Byte) : (s.setResult v).invValid = s.invValid := rfl
@[simp] theorem State.setResult_result (v : Byte) : (s.setResult v).result = v.setWidth 32 := rfl
@[simp] theorem State.setResult_lastErr (v : Byte) : (s.setResult v).lastErr = s.lastErr := rfl
@[simp] theorem State.setResult_stickyErr (v : Byte) : (s.setResult v).stickyErr = s.stickyErr := rfl
@[simp] theorem State.setResult_active (v : Byte) : (s.setResult v).active = s.active := rfl
@[simp] theorem State.setResult_held (v : Byte) : (s.setResult v).held = s.held := rfl
@[simp] theorem State.setResult_inputs (v : Byte) : (s.setResult v).inputs = s.inputs := rfl
@[simp] theorem State.setResult_replies (v : Byte) : (s.setResult v).replies = s.replies := rfl

/-! ### writeBack -/

@[simp] theorem State.writeBack_x (r : RegIdx) (v : Byte) : (s.writeBack r v).x = s.x.set r.val v r.isLt := rfl
@[simp] theorem State.writeBack_coef (r : RegIdx) (v : Byte) : (s.writeBack r v).coef = s.coef := rfl
@[simp] theorem State.writeBack_px (r : RegIdx) (v : Byte) : (s.writeBack r v).px = s.px := rfl
@[simp] theorem State.writeBack_py (r : RegIdx) (v : Byte) : (s.writeBack r v).py = s.py := rfl
@[simp] theorem State.writeBack_inv (r : RegIdx) (v : Byte) : (s.writeBack r v).inv = s.inv := rfl
@[simp] theorem State.writeBack_invValid (r : RegIdx) (v : Byte) : (s.writeBack r v).invValid = s.invValid := rfl
@[simp] theorem State.writeBack_result (r : RegIdx) (v : Byte) : (s.writeBack r v).result = v.setWidth 32 := rfl
@[simp] theorem State.writeBack_lastErr (r : RegIdx) (v : Byte) : (s.writeBack r v).lastErr = s.lastErr := rfl
@[simp] theorem State.writeBack_stickyErr (r : RegIdx) (v : Byte) : (s.writeBack r v).stickyErr = s.stickyErr := rfl
@[simp] theorem State.writeBack_active (r : RegIdx) (v : Byte) : (s.writeBack r v).active = s.active := rfl
@[simp] theorem State.writeBack_held (r : RegIdx) (v : Byte) : (s.writeBack r v).held = s.held := rfl
@[simp] theorem State.writeBack_inputs (r : RegIdx) (v : Byte) : (s.writeBack r v).inputs = s.inputs := rfl
@[simp] theorem State.writeBack_replies (r : RegIdx) (v : Byte) : (s.writeBack r v).replies = s.replies := rfl

/-! ### setCoef -/

@[simp] theorem State.setCoef_x (i v : Byte) : (s.setCoef i v).x = s.x := rfl
@[simp] theorem State.setCoef_coef (i v : Byte) : (s.setCoef i v).coef = s.coef.write i.toNat v := rfl
@[simp] theorem State.setCoef_px (i v : Byte) : (s.setCoef i v).px = s.px := rfl
@[simp] theorem State.setCoef_py (i v : Byte) : (s.setCoef i v).py = s.py := rfl
@[simp] theorem State.setCoef_inv (i v : Byte) : (s.setCoef i v).inv = s.inv := rfl
@[simp] theorem State.setCoef_invValid (i v : Byte) : (s.setCoef i v).invValid = s.invValid := rfl
@[simp] theorem State.setCoef_result (i v : Byte) : (s.setCoef i v).result = s.result := rfl
@[simp] theorem State.setCoef_lastErr (i v : Byte) : (s.setCoef i v).lastErr = s.lastErr := rfl
@[simp] theorem State.setCoef_stickyErr (i v : Byte) : (s.setCoef i v).stickyErr = s.stickyErr := rfl
@[simp] theorem State.setCoef_active (i v : Byte) : (s.setCoef i v).active = s.active := rfl
@[simp] theorem State.setCoef_held (i v : Byte) : (s.setCoef i v).held = s.held := rfl
@[simp] theorem State.setCoef_inputs (i v : Byte) : (s.setCoef i v).inputs = s.inputs := rfl
@[simp] theorem State.setCoef_replies (i v : Byte) : (s.setCoef i v).replies = s.replies := rfl

/-! ### setPoint -/

@[simp] theorem State.setPoint_x (i vx vy : Byte) : (s.setPoint i vx vy).x = s.x := rfl
@[simp] theorem State.setPoint_coef (i vx vy : Byte) : (s.setPoint i vx vy).coef = s.coef := rfl
@[simp] theorem State.setPoint_px (i vx vy : Byte) : (s.setPoint i vx vy).px = s.px.write i.toNat vx := rfl
@[simp] theorem State.setPoint_py (i vx vy : Byte) : (s.setPoint i vx vy).py = s.py.write i.toNat vy := rfl
@[simp] theorem State.setPoint_inv (i vx vy : Byte) : (s.setPoint i vx vy).inv = s.inv := rfl
@[simp] theorem State.setPoint_invValid (i vx vy : Byte) : (s.setPoint i vx vy).invValid = s.invValid := rfl
@[simp] theorem State.setPoint_result (i vx vy : Byte) : (s.setPoint i vx vy).result = s.result := rfl
@[simp] theorem State.setPoint_lastErr (i vx vy : Byte) : (s.setPoint i vx vy).lastErr = s.lastErr := rfl
@[simp] theorem State.setPoint_stickyErr (i vx vy : Byte) : (s.setPoint i vx vy).stickyErr = s.stickyErr := rfl
@[simp] theorem State.setPoint_active (i vx vy : Byte) : (s.setPoint i vx vy).active = s.active := rfl
@[simp] theorem State.setPoint_held (i vx vy : Byte) : (s.setPoint i vx vy).held = s.held := rfl
@[simp] theorem State.setPoint_inputs (i vx vy : Byte) : (s.setPoint i vx vy).inputs = s.inputs := rfl
@[simp] theorem State.setPoint_replies (i vx vy : Byte) : (s.setPoint i vx vy).replies = s.replies := rfl

/-! ### build -/

@[simp] theorem State.build_x : (s.build).x = s.x := rfl
@[simp] theorem State.build_coef : (s.build).coef = s.coef := rfl
@[simp] theorem State.build_px : (s.build).px = s.px := rfl
@[simp] theorem State.build_py : (s.build).py = s.py := rfl
@[simp] theorem State.build_inv : (s.build).inv = builtTable := rfl
@[simp] theorem State.build_invValid : (s.build).invValid = true := rfl
@[simp] theorem State.build_result : (s.build).result = s.result := rfl
@[simp] theorem State.build_lastErr : (s.build).lastErr = s.lastErr := rfl
@[simp] theorem State.build_stickyErr : (s.build).stickyErr = s.stickyErr := rfl
@[simp] theorem State.build_active : (s.build).active = s.active.map fun c => { c with building := false } := rfl
@[simp] theorem State.build_held : (s.build).held = s.held := rfl
@[simp] theorem State.build_inputs : (s.build).inputs = s.inputs := rfl
@[simp] theorem State.build_replies : (s.build).replies = s.replies := rfl

/-! ### complete -/

@[simp] theorem State.complete_x (e : ErrorCode) : (s.complete e).x = s.x := rfl
@[simp] theorem State.complete_coef (e : ErrorCode) : (s.complete e).coef = s.coef := rfl
@[simp] theorem State.complete_px (e : ErrorCode) : (s.complete e).px = s.px := rfl
@[simp] theorem State.complete_py (e : ErrorCode) : (s.complete e).py = s.py := rfl
@[simp] theorem State.complete_inv (e : ErrorCode) : (s.complete e).inv = s.inv := rfl
@[simp] theorem State.complete_invValid (e : ErrorCode) : (s.complete e).invValid = s.invValid := rfl
@[simp] theorem State.complete_result (e : ErrorCode) : (s.complete e).result = s.result := rfl
@[simp] theorem State.complete_lastErr (e : ErrorCode) : (s.complete e).lastErr = e.code := rfl
@[simp] theorem State.complete_stickyErr (e : ErrorCode) : (s.complete e).stickyErr = stickyAfter s.stickyErr e := rfl
@[simp] theorem State.complete_active (e : ErrorCode) : (s.complete e).active = none := rfl
@[simp] theorem State.complete_held (e : ErrorCode) : (s.complete e).held = s.held := rfl
@[simp] theorem State.complete_inputs (e : ErrorCode) : (s.complete e).inputs = s.inputs := rfl
@[simp] theorem State.complete_replies (e : ErrorCode) : (s.complete e).replies = s.replies := rfl

/-! ### clearErrors -/

@[simp] theorem State.clearErrors_x : (s.clearErrors).x = s.x := rfl
@[simp] theorem State.clearErrors_coef : (s.clearErrors).coef = s.coef := rfl
@[simp] theorem State.clearErrors_px : (s.clearErrors).px = s.px := rfl
@[simp] theorem State.clearErrors_py : (s.clearErrors).py = s.py := rfl
@[simp] theorem State.clearErrors_inv : (s.clearErrors).inv = s.inv := rfl
@[simp] theorem State.clearErrors_invValid : (s.clearErrors).invValid = s.invValid := rfl
@[simp] theorem State.clearErrors_result : (s.clearErrors).result = s.result := rfl
@[simp] theorem State.clearErrors_lastErr : (s.clearErrors).lastErr = 0#4 := rfl
@[simp] theorem State.clearErrors_stickyErr : (s.clearErrors).stickyErr = false := rfl
@[simp] theorem State.clearErrors_active : (s.clearErrors).active = s.active := rfl
@[simp] theorem State.clearErrors_held : (s.clearErrors).held = s.held := rfl
@[simp] theorem State.clearErrors_inputs : (s.clearErrors).inputs = s.inputs := rfl
@[simp] theorem State.clearErrors_replies : (s.clearErrors).replies = s.replies := rfl

/-! ### accept -/

@[simp] theorem State.accept_x (w : Word) : (s.accept w).x = s.x := rfl
@[simp] theorem State.accept_coef (w : Word) : (s.accept w).coef = s.coef := rfl
@[simp] theorem State.accept_px (w : Word) : (s.accept w).px = s.px := rfl
@[simp] theorem State.accept_py (w : Word) : (s.accept w).py = s.py := rfl
@[simp] theorem State.accept_inv (w : Word) : (s.accept w).inv = s.inv := rfl
@[simp] theorem State.accept_invValid (w : Word) : (s.accept w).invValid = s.invValid := rfl
@[simp] theorem State.accept_result (w : Word) : (s.accept w).result = s.result := rfl
@[simp] theorem State.accept_lastErr (w : Word) : (s.accept w).lastErr = s.lastErr := rfl
@[simp] theorem State.accept_stickyErr (w : Word) : (s.accept w).stickyErr = s.stickyErr := rfl
@[simp] theorem State.accept_active (w : Word) : (s.accept w).active = some { word := w, building := false } := rfl
@[simp] theorem State.accept_held (w : Word) : (s.accept w).held = s.held := rfl
@[simp] theorem State.accept_inputs (w : Word) : (s.accept w).inputs = s.inputs := rfl
@[simp] theorem State.accept_replies (w : Word) : (s.accept w).replies = s.replies := rfl

/-! ### answer -/

@[simp] theorem State.answer_x (r : Reply) : (s.answer r).x = s.x := rfl
@[simp] theorem State.answer_coef (r : Reply) : (s.answer r).coef = s.coef := rfl
@[simp] theorem State.answer_px (r : Reply) : (s.answer r).px = s.px := rfl
@[simp] theorem State.answer_py (r : Reply) : (s.answer r).py = s.py := rfl
@[simp] theorem State.answer_inv (r : Reply) : (s.answer r).inv = s.inv := rfl
@[simp] theorem State.answer_invValid (r : Reply) : (s.answer r).invValid = s.invValid := rfl
@[simp] theorem State.answer_result (r : Reply) : (s.answer r).result = s.result := rfl
@[simp] theorem State.answer_lastErr (r : Reply) : (s.answer r).lastErr = s.lastErr := rfl
@[simp] theorem State.answer_stickyErr (r : Reply) : (s.answer r).stickyErr = s.stickyErr := rfl
@[simp] theorem State.answer_active (r : Reply) : (s.answer r).active = s.active := rfl
@[simp] theorem State.answer_held (r : Reply) : (s.answer r).held = s.held := rfl
@[simp] theorem State.answer_inputs (r : Reply) : (s.answer r).inputs = s.inputs := rfl
@[simp] theorem State.answer_replies (r : Reply) : (s.answer r).replies = s.replies ++ [r] := rfl

/-! ### softReset -/

@[simp] theorem State.softReset_x : (s.softReset).x = Vector.replicate 16 0#8 := rfl
@[simp] theorem State.softReset_coef : (s.softReset).coef = [] := rfl
@[simp] theorem State.softReset_px : (s.softReset).px = [] := rfl
@[simp] theorem State.softReset_py : (s.softReset).py = [] := rfl
@[simp] theorem State.softReset_inv : (s.softReset).inv = [] := rfl
@[simp] theorem State.softReset_invValid : (s.softReset).invValid = false := rfl
@[simp] theorem State.softReset_result : (s.softReset).result = 0#32 := rfl
@[simp] theorem State.softReset_lastErr : (s.softReset).lastErr = 0#4 := rfl
@[simp] theorem State.softReset_stickyErr : (s.softReset).stickyErr = false := rfl
@[simp] theorem State.softReset_active : (s.softReset).active = none := rfl
@[simp] theorem State.softReset_held : (s.softReset).held = s.held := rfl
@[simp] theorem State.softReset_inputs : (s.softReset).inputs = s.inputs := rfl
@[simp] theorem State.softReset_replies : (s.softReset).replies = s.replies := rfl

/-! ### powerOn -/

@[simp] theorem State.powerOn_x : (s.powerOn).x = Vector.replicate 16 0#8 := rfl
@[simp] theorem State.powerOn_coef : (s.powerOn).coef = [] := rfl
@[simp] theorem State.powerOn_px : (s.powerOn).px = [] := rfl
@[simp] theorem State.powerOn_py : (s.powerOn).py = [] := rfl
@[simp] theorem State.powerOn_inv : (s.powerOn).inv = [] := rfl
@[simp] theorem State.powerOn_invValid : (s.powerOn).invValid = false := rfl
@[simp] theorem State.powerOn_result : (s.powerOn).result = 0#32 := rfl
@[simp] theorem State.powerOn_lastErr : (s.powerOn).lastErr = 0#4 := rfl
@[simp] theorem State.powerOn_stickyErr : (s.powerOn).stickyErr = false := rfl
@[simp] theorem State.powerOn_active : (s.powerOn).active = none := rfl
@[simp] theorem State.powerOn_held : (s.powerOn).held = none := rfl
@[simp] theorem State.powerOn_inputs : (s.powerOn).inputs = s.inputs := rfl
@[simp] theorem State.powerOn_replies : (s.powerOn).replies = s.replies := rfl

/-! ### ensureBuilt -/

@[simp] theorem State.ensureBuilt_x : s.ensureBuilt.x = s.x := by unfold State.ensureBuilt; split <;> rfl
@[simp] theorem State.ensureBuilt_coef : s.ensureBuilt.coef = s.coef := by unfold State.ensureBuilt; split <;> rfl
@[simp] theorem State.ensureBuilt_px : s.ensureBuilt.px = s.px := by unfold State.ensureBuilt; split <;> rfl
@[simp] theorem State.ensureBuilt_py : s.ensureBuilt.py = s.py := by unfold State.ensureBuilt; split <;> rfl
@[simp] theorem State.ensureBuilt_result : s.ensureBuilt.result = s.result := by unfold State.ensureBuilt; split <;> rfl
@[simp] theorem State.ensureBuilt_lastErr : s.ensureBuilt.lastErr = s.lastErr := by unfold State.ensureBuilt; split <;> rfl
@[simp] theorem State.ensureBuilt_stickyErr : s.ensureBuilt.stickyErr = s.stickyErr := by unfold State.ensureBuilt; split <;> rfl
@[simp] theorem State.ensureBuilt_held : s.ensureBuilt.held = s.held := by unfold State.ensureBuilt; split <;> rfl
@[simp] theorem State.ensureBuilt_inputs : s.ensureBuilt.inputs = s.inputs := by unfold State.ensureBuilt; split <;> rfl
@[simp] theorem State.ensureBuilt_replies : s.ensureBuilt.replies = s.replies := by unfold State.ensureBuilt; split <;> rfl
@[simp] theorem State.ensureBuilt_invValid : s.ensureBuilt.invValid = true := by
  unfold State.ensureBuilt; split
  · assumption
  · rfl
theorem State.ensureBuilt_inv : s.ensureBuilt.inv = if s.invValid then s.inv else builtTable := by
  unfold State.ensureBuilt; split <;> rfl
theorem State.ensureBuilt_of_valid (h : s.invValid = true) : s.ensureBuilt = s := by simp [State.ensureBuilt, h]
theorem State.ensureBuilt_of_not_valid (h : s.invValid = false) : s.ensureBuilt = s.build := by
  simp [State.ensureBuilt, h]

/-! ### Registers, BUSY and INV_BUILDING -/

@[simp] theorem State.reg_setReg_same (r : RegIdx) (v : Byte) : (s.setReg r v).reg r = v := by
  simp [State.reg, Vector.get_eq_getElem]
theorem State.reg_setReg_other (r q : RegIdx) (v : Byte) (h : q ≠ r) : (s.setReg r v).reg q = s.reg q := by
  simp only [State.reg, Vector.get_eq_getElem, State.setReg_x]
  exact Vector.getElem_set_ne _ _ fun e => h (Fin.ext e.symm)
@[simp] theorem State.reg_writeBack_same (r : RegIdx) (v : Byte) : (s.writeBack r v).reg r = v := s.reg_setReg_same r v
theorem State.reg_writeBack_other (r q : RegIdx) (v : Byte) (h : q ≠ r) : (s.writeBack r v).reg q = s.reg q :=
  s.reg_setReg_other r q v h
theorem State.reg_congr {s t : State} (h : t.x = s.x) (r : RegIdx) : t.reg r = s.reg r := by simp [State.reg, h]
@[simp] theorem State.reg_complete (e : ErrorCode) (r : RegIdx) : (s.complete e).reg r = s.reg r := rfl
@[simp] theorem State.reg_ensureBuilt (r : RegIdx) : s.ensureBuilt.reg r = s.reg r := State.reg_congr (by simp) r
@[simp] theorem State.reg_reset (r : RegIdx) : State.reset.reg r = 0#8 := by
  simp [State.reg, State.reset, Vector.get_eq_getElem]
@[simp] theorem State.busy_complete (e : ErrorCode) : (s.complete e).busy = false := rfl
@[simp] theorem State.busy_accept (w : Word) : (s.accept w).busy = true := rfl
@[simp] theorem State.busy_softReset : s.softReset.busy = false := rfl
@[simp] theorem State.busy_powerOn : s.powerOn.busy = false := rfl
theorem State.busy_eq_false_iff : s.busy = false ↔ s.active = none := by simp [State.busy]
theorem State.busy_eq_true_iff : s.busy = true ↔ ∃ c, s.active = some c := by simp [State.busy, Option.isSome_iff_exists]

end Sys2Proof.Machine
end

