-- ==== Sys2Proof/Laws/Exec.lean ====
section
/-! SUPPORT. What each command's meaning answers, said once over the shared operations, so that no later proof unfolds a meaning. -/

namespace Sys2Proof.Machine

open Sys2Proof

variable (s : State) (rd rs1 rs2 : RegIdx) (imm idx pt len n vx vy : Byte)

theorem exec_nop : exec .nop s = .next (s.complete .ok) := rfl
theorem exec_invb : exec .invb s = .next (s.ensureBuilt.complete .ok) := rfl
theorem exec_gadd : exec (.gadd rd rs1 rs2) s = .next ((s.writeBack rd (gadd (s.reg rs1) (s.reg rs2))).complete .ok) := rfl
theorem exec_gsub : exec (.gsub rd rs1 rs2) s = .next ((s.writeBack rd (gsub (s.reg rs1) (s.reg rs2))).complete .ok) := rfl
theorem exec_gmul : exec (.gmul rd rs1 rs2) s = .next ((s.writeBack rd (gmul (s.reg rs1) (s.reg rs2))).complete .ok) := rfl
theorem exec_gaddi : exec (.gaddi rd rs1 imm) s = .next ((s.writeBack rd (gadd (s.reg rs1) imm)).complete .ok) := rfl
theorem exec_gmuli : exec (.gmuli rd rs1 imm) s = .next ((s.writeBack rd (gmul (s.reg rs1) imm)).complete .ok) := rfl
theorem exec_gli : exec (.gli rd imm) s = .next ((s.writeBack rd imm).complete .ok) := rfl
theorem exec_pcset : exec (.pcset idx imm) s = .next ((s.setCoef idx imm).complete .ok) := rfl
theorem exec_pcst : exec (.pcst idx rs1) s = .next ((s.setCoef idx (s.reg rs1)).complete .ok) := rfl
theorem exec_pcld : exec (.pcld rd idx) s = .next ((s.writeBack rd (s.coef.read idx.toNat)).complete .ok) := rfl
theorem exec_peval :
    exec (.peval rd rs1 len) s = .next ((s.writeBack rd (geval s.coef len.toNat (s.reg rs1))).complete .ok) := rfl
theorem exec_pevali : exec (.pevali rd pt len) s = .next ((s.writeBack rd (geval s.coef len.toNat pt)).complete .ok) := rfl
theorem exec_lpset : exec (.lpset idx vx vy) s = .next ((s.setPoint idx vx vy).complete .ok) := rfl
theorem exec_lpst : exec (.lpst idx rs1 rs2) s = .next ((s.setPoint idx (s.reg rs1) (s.reg rs2)).complete .ok) := rfl
theorem exec_lpldx : exec (.lpldx rd idx) s = .next ((s.writeBack rd (s.px.read idx.toNat)).complete .ok) := rfl
theorem exec_lpldy : exec (.lpldy rd idx) s = .next ((s.writeBack rd (s.py.read idx.toNat)).complete .ok) := rfl

/-! ### The commands that need the inverse table -/

theorem exec_gdiv_zero (h : s.reg rs2 = 0#8) :
    exec (.gdiv rd rs1 rs2) s = .next (s.ensureBuilt.complete .divByZero) := by simp [exec, execGdiv, h]
theorem exec_gdiv (h : s.reg rs2 ≠ 0#8) :
    exec (.gdiv rd rs1 rs2) s =
      .next ((s.ensureBuilt.writeBack rd (gmul (s.reg rs1) (s.ensureBuilt.inverse (s.reg rs2)))).complete .ok) := by
  simp [exec, execGdiv, h]
theorem exec_ginv_zero (h : s.reg rs1 = 0#8) :
    exec (.ginv rd rs1) s = .next (s.ensureBuilt.complete .divByZero) := by simp [exec, execGinv, h]
theorem exec_ginv (h : s.reg rs1 ≠ 0#8) :
    exec (.ginv rd rs1) s = .next ((s.ensureBuilt.writeBack rd (s.ensureBuilt.inverse (s.reg rs1))).complete .ok) := by
  simp [exec, execGinv, h]

/-- The duplicate check over the first n points (43_lagrange.md R202). -/
theorem hasDuplicate_iff (px : Memory) (m : Nat) :
    hasDuplicate px m = true ↔ ∃ j k, j < m ∧ k < m ∧ j ≠ k ∧ px.read j = px.read k := by
  simp only [hasDuplicate, List.any_eq_true, List.mem_range, Bool.and_eq_true, bne_iff_ne, beq_iff_eq]
  constructor
  · rintro ⟨j, hj, k, hk, hne, heq⟩; exact ⟨j, k, hj, hk, hne, heq⟩
  · rintro ⟨j, k, hj, hk, hne, heq⟩; exact ⟨j, hj, k, hk, hne, heq⟩

theorem exec_lagr_duplicate (h : hasDuplicate s.px n.toNat = true) :
    exec (.lagr rd n) s = .next (s.ensureBuilt.complete .divByZero) := by simp [exec, execLagr, glagr, countOf, h]
theorem exec_lagr (h : hasDuplicate s.px n.toNat = false) :
    exec (.lagr rd n) s =
      .next ((s.ensureBuilt.writeBack rd (lagrangeSum s.ensureBuilt.inv s.px s.py n.toNat)).complete .ok) := by
  simp [exec, execLagr, glagr, countOf, h]

/-! ### What every meaning has in common -/

/-- Every command answers a next state, the completion of a state that keeps the port's side of the block. -/
theorem exec_completes (i : Instr) :
    ∃ (u : State) (e : ErrorCode), exec i s = .next (u.complete e) ∧
      u.held = s.held ∧ u.inputs = s.inputs ∧ u.replies = s.replies ∧ u.stickyErr = s.stickyErr := by
  cases i with
  | gdiv rd rs1 rs2 =>
    by_cases h : s.reg rs2 = 0#8
    · exact ⟨_, _, exec_gdiv_zero s rd rs1 rs2 h, by simp, by simp, by simp, by simp⟩
    · exact ⟨_, _, exec_gdiv s rd rs1 rs2 h, by simp, by simp, by simp, by simp⟩
  | ginv rd rs1 =>
    by_cases h : s.reg rs1 = 0#8
    · exact ⟨_, _, exec_ginv_zero s rd rs1 h, by simp, by simp, by simp, by simp⟩
    · exact ⟨_, _, exec_ginv s rd rs1 h, by simp, by simp, by simp, by simp⟩
  | lagr rd n =>
    cases h : hasDuplicate s.px n.toNat with
    | true => exact ⟨_, _, exec_lagr_duplicate s rd n h, by simp, by simp, by simp, by simp⟩
    | false => exact ⟨_, _, exec_lagr s rd n h, by simp, by simp, by simp, by simp⟩
  | invb => exact ⟨_, _, rfl, by simp, by simp, by simp, by simp⟩
  | _ => exact ⟨_, _, rfl, rfl, rfl, rfl, rfl⟩

end Sys2Proof.Machine
end

