-- ==== Sys2Proof/Laws/Memory.lean ====
section
/-! SUPPORT. The laws of the internal memories: a read after a write, the canonical form kept by every write, and equal contents
being equal lists. -/

namespace Sys2Proof.Machine

open Sys2Proof

@[simp] theorem Memory.read_nil (a : Nat) : Memory.read [] a = 0#8 := rfl
@[simp] theorem Memory.wf_nil : Memory.wf [] = true := rfl

theorem Memory.risingFrom_cons (lo k : Nat) (v : Byte) (m : Memory) :
    Memory.risingFrom lo ((k, v) :: m) = true ↔ lo ≤ k ∧ k < 256 ∧ v ≠ 0#8 ∧ Memory.risingFrom (k + 1) m = true := by
  simp only [Memory.risingFrom, Bool.and_eq_true, decide_eq_true_eq, and_assoc]
  exact Iff.rfl

/-- Raising no bound: a list rising from `hi` rises from every smaller bound. -/
theorem Memory.risingFrom_mono {lo hi : Nat} {m : Memory} (h : lo ≤ hi) (hm : Memory.risingFrom hi m = true) :
    Memory.risingFrom lo m = true := by
  cases m with
  | nil => rfl
  | cons c m => 
    obtain ⟨k, v⟩ := c
    rw [Memory.risingFrom_cons] at *
    exact ⟨Nat.le_trans h hm.1, hm.2⟩

/-- Below the bound a rising list holds nothing. -/
theorem Memory.read_below {m : Memory} {lo a : Nat} (hm : Memory.risingFrom lo m = true) (ha : a < lo) : m.read a = 0#8 := by
  induction m generalizing lo with
  | nil => rfl
  | cons c m ih =>
    obtain ⟨k, v⟩ := c
    rw [Memory.risingFrom_cons] at hm
    have hne : a ≠ k := by omega
    simp only [Memory.read, hne, if_false]
    exact ih hm.2.2.2 (by omega)

/-- A write keeps a rising list rising. -/
theorem Memory.risingFrom_write {m : Memory} {lo a : Nat} (v : Byte) (hm : Memory.risingFrom lo m = true) (hlo : lo ≤ a)
    (ha : a < 256) : Memory.risingFrom lo (m.write a v) = true := by
  induction m generalizing lo with
  | nil =>
    simp only [Memory.write]
    split
    · rfl
    · rename_i hv; exact (Memory.risingFrom_cons ..).2 ⟨hlo, ha, hv, rfl⟩
  | cons c m ih =>
    obtain ⟨k, w⟩ := c
    have hm' := (Memory.risingFrom_cons ..).1 hm
    obtain ⟨h1, h2, h3, h4⟩ := hm'
    simp only [Memory.write]
    split
    · split
      · exact hm
      · rename_i hlt hv
        exact (Memory.risingFrom_cons ..).2 ⟨hlo, ha, hv, (Memory.risingFrom_cons ..).2 ⟨by omega, h2, h3, h4⟩⟩
    · split
      · rename_i hlt heq
        subst heq
        split
        · exact Memory.risingFrom_mono (by omega) h4
        · rename_i hv; exact (Memory.risingFrom_cons ..).2 ⟨hlo, ha, hv, h4⟩
      · exact (Memory.risingFrom_cons ..).2 ⟨h1, h2, h3, ih h4 (by omega)⟩

/-- Every write to one of the memory's entries keeps the canonical form. -/
theorem Memory.wf_write {m : Memory} {a : Nat} (v : Byte) (hm : m.wf = true) (ha : a < 256) : (m.write a v).wf = true :=
  Memory.risingFrom_write v hm (Nat.zero_le a) ha

/-- A read after a write on a rising list: the value written at its entry, the old value everywhere else. -/
theorem Memory.read_write_rising {m : Memory} {lo : Nat} (a b : Nat) (v : Byte) (hm : Memory.risingFrom lo m = true) :
    (m.write a v).read b = if b = a then v else m.read b := by
  induction m generalizing lo with
  | nil => by_cases hv : v = 0#8 <;> simp [Memory.write, Memory.read, Memory.unlisted, hv]
  | cons c m ih =>
    obtain ⟨k, w⟩ := c
    obtain ⟨h1, h2, h3, h4⟩ := (Memory.risingFrom_cons ..).1 hm
    have hk : Memory.risingFrom k ((k, w) :: m) = true := (Memory.risingFrom_cons ..).2 ⟨Nat.le_refl k, h2, h3, h4⟩
    rcases Nat.lt_trichotomy a k with hlt | rfl | hgt
    · by_cases hv : v = 0#8
      · have hread : Memory.read ((k, w) :: m) a = 0#8 := Memory.read_below hk hlt
        simp only [Memory.write, hlt, Memory.unlisted, hv, if_true]
        by_cases hb : b = a
        · simp only [hb, if_true, hread]
        · simp only [hb, if_false]
      · simp only [Memory.write, hlt, Memory.unlisted, hv, if_true, if_false, Memory.read]
    · have hread : Memory.read m a = 0#8 := Memory.read_below h4 (Nat.lt_succ_self a)
      by_cases hv : v = 0#8
      · simp only [Memory.write, Nat.lt_irrefl, Memory.unlisted, hv, if_true, if_false, Memory.read]
        by_cases hb : b = a
        · simp only [hb, if_true, hread]
        · simp only [hb, if_false]
      · simp only [Memory.write, Nat.lt_irrefl, Memory.unlisted, hv, if_true, if_false, Memory.read]
        by_cases hb : b = a <;> simp only [hb, if_true, if_false]
    · have hnlt : ¬ a < k := by omega
      have hne : ¬ a = k := by omega
      simp only [Memory.write, hnlt, hne, if_false, Memory.read, ih h4]
      by_cases hb : b = k
      · have hba : ¬ k = a := fun h => hne h.symm
        simp only [hb, hba, if_true, if_false]
      · simp only [hb, if_false]

/-- A read after a write on a canonical memory. -/
theorem Memory.read_write {m : Memory} (a b : Nat) (v : Byte) (hm : m.wf = true) :
    (m.write a v).read b = if b = a then v else m.read b := Memory.read_write_rising a b v hm

/-- Rising lists that read alike are equal. -/
theorem Memory.risingFrom_ext {m n : Memory} {lo : Nat} (hm : Memory.risingFrom lo m = true)
    (hn : Memory.risingFrom lo n = true) (h : ∀ a, m.read a = n.read a) : m = n := by
  induction m generalizing n lo with
  | nil =>
    cases n with
    | nil => rfl
    | cons c n =>
      obtain ⟨k, v⟩ := c
      have := h k
      rw [Memory.risingFrom_cons] at hn
      simp [Memory.read] at this
      exact absurd this.symm hn.2.2.1
  | cons c m ih =>
    obtain ⟨k, v⟩ := c
    have hm' := (Memory.risingFrom_cons ..).1 hm
    cases n with
    | nil =>
      have := h k
      simp [Memory.read] at this
      exact absurd this hm'.2.2.1
    | cons d n =>
      obtain ⟨l, w⟩ := d
      have hn' := (Memory.risingFrom_cons ..).1 hn
      have hkl : k = l := by
        rcases Nat.lt_trichotomy k l with hlt | heq | hgt
        · have h1 := h k
          rw [Memory.read_below ((Memory.risingFrom_cons ..).2 ⟨Nat.le_refl l, hn'.2⟩) hlt] at h1
          simp [Memory.read] at h1
          exact absurd h1 hm'.2.2.1
        · exact heq
        · have h1 := h l
          rw [Memory.read_below ((Memory.risingFrom_cons ..).2 ⟨Nat.le_refl k, hm'.2⟩) hgt] at h1
          simp [Memory.read] at h1
          exact absurd h1.symm hn'.2.2.1
      subst hkl
      have hvw : v = w := by simpa [Memory.read] using h k
      subst hvw
      congr 1
      refine ih hm'.2.2.2 hn'.2.2.2 fun a => ?_
      by_cases ha : a = k
      · subst ha
        rw [Memory.read_below hm'.2.2.2 (by omega), Memory.read_below hn'.2.2.2 (by omega)]
      · simpa [Memory.read, ha] using h a

/-- Equal memories are equal data: canonical memories that read alike are the same list. -/
theorem Memory.wf_ext {m n : Memory} (hm : m.wf = true) (hn : n.wf = true) (h : ∀ a, m.read a = n.read a) : m = n :=
  Memory.risingFrom_ext hm hn h

end Sys2Proof.Machine
end

