-- ==== Sys2Proof/Laws/Field.lean ====
section
/-! SUPPORT. The field functions: linearity of the multiply loop, what the scan of the build finds, and the built table read entry
by entry. -/

namespace Sys2Proof.Machine

open Sys2Proof

theorem gadd_comm (a b : Byte) : gadd a b = gadd b a := BitVec.xor_comm a b
theorem gadd_assoc (a b c : Byte) : gadd (gadd a b) c = gadd a (gadd b c) := BitVec.xor_assoc a b c
@[simp] theorem gadd_zero (a : Byte) : gadd a 0#8 = a := BitVec.xor_zero
@[simp] theorem zero_gadd (a : Byte) : gadd 0#8 a = a := BitVec.zero_xor
theorem gsub_eq_zero_iff (a b : Byte) : gsub a b = 0#8 ↔ a = b := BitVec.xor_eq_zero_iff

/-- Multiplying by x is linear. -/
theorem xtime_xor (a b : Byte) : xtime (a ^^^ b) = xtime a ^^^ xtime b := by
  have hshift : (a ^^^ b) <<< 1 = a <<< 1 ^^^ b <<< 1 := BitVec.shiftLeft_xor_distrib a b 1
  have hcancel : ∀ u v r : Byte, (u ^^^ r) ^^^ (v ^^^ r) = u ^^^ v := by
    intro u v r
    rw [show (u ^^^ r) ^^^ (v ^^^ r) = (u ^^^ v) ^^^ (r ^^^ r) by ac_rfl, BitVec.xor_self, BitVec.xor_zero]
  simp only [xtime, BitVec.getLsbD_xor, hshift]
  cases a.getLsbD 7 <;> cases b.getLsbD 7
  · rfl
  · exact BitVec.xor_assoc ..
  · show a <<< 1 ^^^ b <<< 1 ^^^ Config.reduction = (a <<< 1 ^^^ Config.reduction) ^^^ b <<< 1
    ac_rfl
  · exact (hcancel _ _ _).symm

/-- The multiply loop adds its accumulator to the product. -/
theorem gmulLoop_acc (n : Nat) (a b p : Byte) : gmulLoop n a b p = p ^^^ gmulLoop n a b 0#8 := by
  induction n generalizing a b p with
  | zero => simp [gmulLoop]
  | succ n ih =>
    simp only [gmulLoop]
    rw [ih]
    conv_rhs => rw [ih]
    split <;> simp [BitVec.xor_assoc]

/-- The multiply loop is linear in its first factor. -/
theorem gmulLoop_xor (n : Nat) (a a' b : Byte) :
    gmulLoop n (a ^^^ a') b 0#8 = gmulLoop n a b 0#8 ^^^ gmulLoop n a' b 0#8 := by
  induction n generalizing a a' b with
  | zero => simp [gmulLoop]
  | succ n ih =>
    simp only [gmulLoop, xtime_xor]
    rw [gmulLoop_acc, gmulLoop_acc n (xtime a), gmulLoop_acc n (xtime a'), ih]
    split
    · simp only [BitVec.zero_xor]
      ac_rfl
    · simp

/-- Multiplication distributes over addition in its first factor. -/
theorem gmul_xor_left (a a' b : Byte) : gmul (a ^^^ a') b = gmul a b ^^^ gmul a' b := gmulLoop_xor 8 a a' b

/-- The scan finds an inverse if one is among its candidates. -/
theorem gmul_scanInverse (a : Byte) (n : Nat) (b : Byte) (h : ∃ k, k < n ∧ gmul a (b + BitVec.ofNat 8 k) = 1#8) :
    gmul a (scanInverse a n b) = 1#8 := by
  induction n generalizing b with
  | zero => obtain ⟨k, hk, _⟩ := h; omega
  | succ n ih =>
    simp only [scanInverse]
    split
    · assumption
    · rename_i hb
      obtain ⟨k, hk, hgk⟩ := h
      refine ih (b + 1#8) ?_
      cases k with
      | zero => simp [hb] at hgk
      | succ k =>
        refine ⟨k, by omega, ?_⟩
        rw [BitVec.add_assoc]
        simpa [BitVec.ofNat_add, BitVec.add_comm] using hgk

/-- An element the scan meets first is what it finds. -/
theorem scanInverse_unique (a : Byte) (n : Nat) (b c : Byte) (hc : gmul a (scanInverse a n b) = 1#8)
    (hu : ∀ d, gmul a d = 1#8 → d = c) : scanInverse a n b = c := hu _ hc

/-! ### The built table -/

theorem read_entries (f : Nat → Byte) (xs : List Nat) (a : Nat) (ha : a ∈ xs) :
    Memory.read (xs.map fun k => (k + 1, f k)) (a + 1) = f a := by
  induction xs with
  | nil => simp at ha
  | cons k xs ih =>
    simp only [List.map_cons, Memory.read]
    split
    · rename_i h; rw [Nat.succ.inj h]
    · rename_i h
      rcases List.mem_cons.1 ha with rfl | h'
      · exact absurd rfl h
      · exact ih h'

/-- The built table holds, at every nonzero element, what ginv gives it. -/
theorem read_builtTable (a : Byte) (ha : a ≠ 0#8) : builtTable.read a.toNat = ginv a := by
  have hlt := a.isLt
  have hne : a.toNat ≠ 0 := fun h => ha (BitVec.eq_of_toNat_eq (by simpa using h))
  obtain ⟨k, hk⟩ : ∃ k, a.toNat = k + 1 := ⟨a.toNat - 1, by omega⟩
  rw [hk, builtTable, read_entries (fun k => ginv (BitVec.ofNat 8 (k + 1))) _ k (List.mem_range.2 (by omega)), ← hk]
  simp

/-- The built table has an entry for each of 1..255, in order. -/
theorem length_builtTable : builtTable.length = 255 := by simp [builtTable]

end Sys2Proof.Machine
end

