-- ==== Sys2Proof/Laws/InverseTable.lean ====
section
/-! SUPPORT. The printed table of 41_inverse_cache.md R159 used as a witness: every nonzero element has an inverse, so the scan of
the build finds one, and the built table is canonical and holds them. -/

namespace Sys2Proof.Machine

open Sys2Proof

/-- Each printed entry is an inverse of its element, checked one by one. -/
theorem gmul_printedEntry : ∀ k : Fin 255, gmul (BitVec.ofNat 8 (k.val + 1)) (printedTable.getD k.val 0#8) = 1#8 := by
  decide +kernel

/-- What the build records for a nonzero element is an inverse of it. -/
theorem gmul_ginv (a : Byte) (ha : a ≠ 0#8) : gmul a (ginv a) = 1#8 := by
  have hlt := a.isLt
  have hne : a.toNat ≠ 0 := fun h => ha (BitVec.eq_of_toNat_eq (by simpa using h))
  have hentry := gmul_printedEntry ⟨a.toNat - 1, by omega⟩
  have hself : BitVec.ofNat 8 (a.toNat - 1 + 1) = a := by rw [Nat.sub_add_cancel (by omega)]; simp
  simp only [hself] at hentry
  generalize printedTable.getD (a.toNat - 1) 0#8 = b at hentry
  have hb : b.toNat ≠ 0 := by
    intro h
    have hb0 : b = 0#8 := BitVec.eq_of_toNat_eq (by simpa using h)
    rw [hb0] at hentry
    have hzero : gmul a 0#8 = 0#8 := by simp [gmul, gmulLoop]
    rw [hzero] at hentry
    exact absurd hentry (by decide)
  refine gmul_scanInverse a 255 1#8 ⟨b.toNat - 1, by omega, ?_⟩
  have hbit : 1#8 + BitVec.ofNat 8 (b.toNat - 1) = b := by
    apply BitVec.eq_of_toNat_eq
    have := b.isLt
    simp only [BitVec.toNat_add, BitVec.toNat_ofNat]
    omega
  rw [hbit]
  exact hentry

/-- An inverse is no zero. -/
theorem ginv_ne_zero (a : Byte) (ha : a ≠ 0#8) : ginv a ≠ 0#8 := by
  intro h
  have h1 := gmul_ginv a ha
  rw [h] at h1
  have hzero : gmul a 0#8 = 0#8 := by simp [gmul, gmulLoop]
  rw [hzero] at h1
  exact absurd h1 (by decide)

/-- A block whose table has just been built has a sound table. -/
theorem State.tableSound_build (s : State) : s.build.TableSound := by
  intro _ a ha
  show gmul a (builtTable.read a.toNat) = 1#8
  rw [read_builtTable a ha]
  exact gmul_ginv a ha

theorem rising_entries (f : Nat → Byte) (n lo : Nat) (hn : lo + n ≤ 255) (hf : ∀ k, k < 255 → f k ≠ 0#8) :
    Memory.risingFrom (lo + 1) ((List.range' lo n).map fun k => (k + 1, f k)) = true := by
  induction n generalizing lo with
  | zero => rfl
  | succ n ih =>
    rw [List.range'_succ, List.map_cons, Memory.risingFrom_cons]
    exact ⟨by omega, by omega, hf lo (by omega), ih (lo + 1) (by omega)⟩

/-- The built table is in canonical form. -/
theorem builtTable_wf : builtTable.wf = true := by
  unfold builtTable Memory.wf
  rw [List.range_eq_range']
  refine Memory.risingFrom_mono (Nat.zero_le _)
    (rising_entries (fun k => ginv (BitVec.ofNat 8 (k + 1))) 255 0 (by omega) fun k hk => ginv_ne_zero _ ?_)
  intro h
  have := congrArg BitVec.toNat h
  simp only [BitVec.toNat_ofNat] at this
  omega

end Sys2Proof.Machine
end

