-- ==== Sys2Proof/Laws/PerInstr.lean ====
section
/-! SUPPORT. What holds of every command as syntax, one lemma per constructor: its encoding carries its row's opcode in bits
31:24 (30_encoding.md R70). -/

namespace Sys2Proof.Laws

open Sys2Proof

/-- The `op` field of a command's encoding is its row's opcode. -/
def EncodedRow.Statement (i : Instr) : Prop := fieldOp (encode i) = i.opcode.code

theorem EncodedRow.nop : EncodedRow.Statement (.nop) := fieldOp_append _ _
theorem EncodedRow.invb : EncodedRow.Statement (.invb) := fieldOp_append _ _
theorem EncodedRow.gadd (a : RegIdx) (b : RegIdx) (c : RegIdx) : EncodedRow.Statement (.gadd a b c) := fieldOp_layoutR ..
theorem EncodedRow.gsub (a : RegIdx) (b : RegIdx) (c : RegIdx) : EncodedRow.Statement (.gsub a b c) := fieldOp_layoutR ..
theorem EncodedRow.gmul (a : RegIdx) (b : RegIdx) (c : RegIdx) : EncodedRow.Statement (.gmul a b c) := fieldOp_layoutR ..
theorem EncodedRow.gdiv (a : RegIdx) (b : RegIdx) (c : RegIdx) : EncodedRow.Statement (.gdiv a b c) := fieldOp_layoutR ..
theorem EncodedRow.ginv (a : RegIdx) (b : RegIdx) : EncodedRow.Statement (.ginv a b) := fieldOp_layoutU ..
theorem EncodedRow.gaddi (a : RegIdx) (b : RegIdx) (c : Byte) : EncodedRow.Statement (.gaddi a b c) := fieldOp_layoutI ..
theorem EncodedRow.gmuli (a : RegIdx) (b : RegIdx) (c : Byte) : EncodedRow.Statement (.gmuli a b c) := fieldOp_layoutI ..
theorem EncodedRow.gli (a : RegIdx) (b : Byte) : EncodedRow.Statement (.gli a b) := fieldOp_layoutL ..
theorem EncodedRow.pcset (a : Byte) (b : Byte) : EncodedRow.Statement (.pcset a b) := fieldOp_layoutS ..
theorem EncodedRow.pcst (a : Byte) (b : RegIdx) : EncodedRow.Statement (.pcst a b) := fieldOp_layoutMS ..
theorem EncodedRow.pcld (a : RegIdx) (b : Byte) : EncodedRow.Statement (.pcld a b) := fieldOp_layoutL ..
theorem EncodedRow.peval (a : RegIdx) (b : RegIdx) (c : Byte) : EncodedRow.Statement (.peval a b c) := fieldOp_layoutI ..
theorem EncodedRow.pevali (a : RegIdx) (b : Byte) (c : Byte) : EncodedRow.Statement (.pevali a b c) := fieldOp_layoutE ..
theorem EncodedRow.lpset (a : Byte) (b : Byte) (c : Byte) : EncodedRow.Statement (.lpset a b c) := fieldOp_layoutP ..
theorem EncodedRow.lpst (a : Byte) (b : RegIdx) (c : RegIdx) : EncodedRow.Statement (.lpst a b c) := fieldOp_layoutMP ..
theorem EncodedRow.lpldx (a : RegIdx) (b : Byte) : EncodedRow.Statement (.lpldx a b) := fieldOp_layoutL ..
theorem EncodedRow.lpldy (a : RegIdx) (b : Byte) : EncodedRow.Statement (.lpldy a b) := fieldOp_layoutL ..
theorem EncodedRow.lagr (a : RegIdx) (b : Byte) : EncodedRow.Statement (.lagr a b) := fieldOp_layoutL ..

end Sys2Proof.Laws
end

