-- ==== Sys2Proof/Laws/Step.lean ====
section
/-! SUPPORT. What a step can do, said once: the lane's three moves, the port's answer to each access, and the cases of the next
event. -/

namespace Sys2Proof.Machine

open Sys2Proof

variable (s : State)

/-! ### The lane -/

theorem runCommand_idle (h : s.active = none) : runCommand s = .next s := by simp [runCommand, h]

theorem runCommand_command {c : InProgress} {i : Instr} (h : s.active = some c) (hd : decode c.word = .command i) :
    runCommand s = exec i s := by simp [runCommand, h, hd]

theorem runCommand_illegal {c : InProgress} {r : IllegalReason} (h : s.active = some c) (hd : decode c.word = .illegal r) :
    runCommand s = .next (s.complete .illegalCmd) := by simp [runCommand, h, hd]

/-- Running the command in progress answers a next state in which no command is in progress. -/
theorem runCommand_next : ∃ t, runCommand s = .next t ∧ t.active = none ∧
    t.held = s.held ∧ t.inputs = s.inputs ∧ t.replies = s.replies := by
  cases h : s.active with
  | none => exact ⟨s, runCommand_idle s h, h, rfl, rfl, rfl⟩
  | some c =>
    cases hd : decode c.word with
    | illegal r => exact ⟨_, runCommand_illegal s h hd, rfl, rfl, rfl, rfl⟩
    | command i =>
      obtain ⟨u, e, he, h1, h2, h3, _⟩ := exec_completes s i
      exact ⟨_, (runCommand_command s h hd).trans he, rfl, h1, h2, h3⟩

theorem startBuild_idle (h : s.active = none) : s.startBuild = s := by simp [State.startBuild, h]
theorem startBuild_busy {c : InProgress} (h : s.active = some c) :
    s.startBuild = if buildsTable c.word && !s.invValid then { s with active := some { c with building := true } } else s := by
  simp [State.startBuild, h]
theorem endBuild_idle (h : s.active = none) : s.endBuild = s := by simp [State.endBuild, State.invBuilding, h]
theorem endBuild_busy {c : InProgress} (h : s.active = some c) : s.endBuild = if c.building then s.build else s := by
  simp [State.endBuild, State.invBuilding, h]

/-! ### The port -/

@[simp] theorem portRegAt_cmd : portRegAt 0x08#8 = .cmd := rfl
@[simp] theorem portRegAt_status : portRegAt 0x0C#8 = .status := rfl
@[simp] theorem portRegAt_result : portRegAt 0x10#8 = .result := rfl
@[simp] theorem portRegAt_ctrl : portRegAt 0x14#8 = .ctrl := rfl
theorem cmdWrite_offset (w : Word) : (cmdWrite w).offset = 0x08#8 := rfl
theorem cmdWrite_op (w : Word) : (cmdWrite w).op = .write w := rfl
theorem ctrlWrite_offset (v : Word) : (ctrlWrite v).offset = 0x14#8 := rfl
theorem ctrlWrite_op (v : Word) : (ctrlWrite v).op = .write v := rfl
@[simp] theorem cmdWrite_legal (w : Word) : (cmdWrite w).legal = true := by simp [cmdWrite, HostAccess.legal]
@[simp] theorem ctrlWrite_legal (v : Word) : (ctrlWrite v).legal = true := by simp [ctrlWrite, HostAccess.legal]
@[simp] theorem cmdWrite_heldByBusy (w : Word) : (cmdWrite w).heldByBusy = true := by
  simp [HostAccess.heldByBusy, cmdWrite_op, AccessOp.isWrite, cmdWrite_offset]
@[simp] theorem resultRead_heldByBusy : resultRead.heldByBusy = true := rfl
@[simp] theorem statusRead_heldByBusy : statusRead.heldByBusy = false := rfl
@[simp] theorem ctrlWrite_heldByBusy (v : Word) : (ctrlWrite v).heldByBusy = false := by
  simp [HostAccess.heldByBusy, ctrlWrite_op, AccessOp.isWrite, ctrlWrite_offset]

theorem perform_illegal {a : HostAccess} (h : a.legal = false) : s.perform a = s.answer .busError := by simp [State.perform, h]
@[simp] theorem perform_cmdWrite (w : Word) : s.perform (cmdWrite w) = (s.accept w).answer .written := by
  simp only [State.perform, cmdWrite_legal]; rfl
@[simp] theorem perform_resultRead : s.perform resultRead = s.answer (.data s.result) := rfl
@[simp] theorem perform_statusRead : s.perform statusRead = s.answer (.data s.status) := rfl
@[simp] theorem perform_ctrlWrite (v : Word) : s.perform (ctrlWrite v) = (s.writeCtrl v).answer .written := by
  simp only [State.perform, ctrlWrite_legal]; rfl

/-- An access is held by BUSY exactly if it is a legal CMD write or a legal RESULT read. -/
theorem heldByBusy_iff (a : HostAccess) : a.heldByBusy = true ↔
    a.legal = true ∧ ((∃ v, a.op = .write v ∧ portRegAt a.offset = .cmd) ∨ (a.op = .read ∧ portRegAt a.offset = .result)) := by
  unfold HostAccess.heldByBusy
  generalize a.legal = l
  generalize portRegAt a.offset = r
  generalize a.op = o
  cases l <;> cases o <;> cases r <;> simp [AccessOp.isWrite]

/-- What performing an access can leave: an answer on top of the same block, of a command accepted, of a soft reset, or of cleared
error fields. A command is accepted only by an access that BUSY holds. -/
theorem perform_cases (a : HostAccess) : ∃ r,
    s.perform a = s.answer r ∨
    (∃ w, a.heldByBusy = true ∧ a.op = .write w ∧ s.perform a = (s.accept w).answer r) ∨
    s.perform a = s.softReset.answer r ∨ s.perform a = s.clearErrors.answer r := by
  cases hl : a.legal with
  | false => exact ⟨_, .inl (perform_illegal s hl)⟩
  | true =>
    cases ho : a.op with
    | read => exact ⟨_, .inl (by simp only [State.perform, hl, ho, if_true]; rfl)⟩
    | write v =>
      have hp : s.perform a = (s.writePort (portRegAt a.offset) v).answer .written := by
        simp only [State.perform, hl, ho, if_true]
      refine ⟨.written, ?_⟩
      rw [hp]
      cases hr : portRegAt a.offset with
      | cmd => exact .inr (.inl ⟨v, (heldByBusy_iff a).2 ⟨hl, .inl ⟨v, ho, hr⟩⟩, rfl, rfl⟩)
      | ctrl =>
        simp only [State.writePort, State.writeCtrl]
        split
        · exact .inr (.inr (.inl rfl))
        · split
          · exact .inr (.inr (.inr rfl))
          · exact .inl rfl
      | _ => exact .inl rfl

/-! ### The next event -/

/-- A held access is performed as soon as BUSY = 0. -/
theorem step_held {a : HostAccess} (hh : s.held = some a) (hb : s.busy = false) :
    step s = .next ({ s with held := none }.perform a) := by simp [step, nextEvent, hh, hb]

/-- While the block is busy, or when nothing is held, the next input decides. -/
theorem step_inputs (h : s.busy = true ∨ s.held = none) :
    step s = match s.inputs with
      | [] => runCommand s
      | .progress p :: rest => advance p { s with inputs := rest }
      | .powerOnReset :: rest => .next { s with inputs := rest }.powerOn
      | .access a :: rest => receive a rest s := by
  unfold step nextEvent
  split
  · rename_i a hh hb
    rcases h with h | h <;> simp_all
  · rfl

/-- The cases of a step: if it answers `t`, then one of these holds. -/
theorem step_cases {t : State} (h : step s = .next t) :
    (∃ a, s.held = some a ∧ s.busy = false ∧ t = { s with held := none }.perform a) ∨
    ((s.busy = true ∨ s.held = none) ∧
      ((∃ rest, (s.inputs = rest ∨ s.inputs = .progress .completes :: rest) ∧ runCommand { s with inputs := rest } = .next t) ∨
       (∃ rest, s.inputs = .progress .buildStarts :: rest ∧ t = { s with inputs := rest }.startBuild) ∨
       (∃ rest, s.inputs = .progress .buildEnds :: rest ∧ t = { s with inputs := rest }.endBuild) ∨
       (∃ rest, s.inputs = .powerOnReset :: rest ∧ t = { s with inputs := rest }.powerOn) ∨
       (∃ a rest, s.inputs = .access a :: rest ∧ a.heldByBusy = true ∧ s.busy = true ∧ s.held = none ∧
         t = { s with held := some a, inputs := rest }) ∨
       (∃ a rest, s.inputs = .access a :: rest ∧ (a.heldByBusy = false ∨ s.busy = false) ∧
         t = { s with inputs := rest }.perform a))) := by
  by_cases hc : s.busy = true ∨ s.held = none
  · refine .inr ⟨hc, ?_⟩
    rw [step_inputs s hc] at h
    split at h
    · rename_i hi
      exact .inl ⟨s.inputs, .inl rfl, h⟩
    · rename_i p rest hi
      cases p with
      | buildStarts => exact .inr (.inl ⟨rest, hi, by cases h; rfl⟩)
      | buildEnds => exact .inr (.inr (.inl ⟨rest, hi, by cases h; rfl⟩))
      | completes => exact .inl ⟨rest, .inr hi, h⟩
    · rename_i rest hi
      exact .inr (.inr (.inr (.inl ⟨rest, hi, by cases h; rfl⟩)))
    · rename_i a rest hi
      unfold receive at h
      split at h
      · rename_i hab
        simp only [Bool.and_eq_true] at hab
        split at h
        · exact .inl ⟨s.inputs, .inl rfl, h⟩
        · rename_i hn
          exact .inr (.inr (.inr (.inr (.inl ⟨a, rest, hi, hab.1, hab.2, by simpa using hn, by cases h; rfl⟩))))
      · rename_i hab
        refine .inr (.inr (.inr (.inr (.inr ⟨a, rest, hi, ?_, by cases h; rfl⟩))))
        cases ha : a.heldByBusy <;> simp_all
  · left
    simp only [not_or, Bool.not_eq_true] at hc
    obtain ⟨hb, hh⟩ := hc
    obtain ⟨a, ha⟩ := Option.ne_none_iff_exists'.1 hh
    exact ⟨a, ha, hb, by rw [step_held s ha hb] at h; cases h; rfl⟩

end Sys2Proof.Machine
end

