-- ==== Sys2Proof/Tests/Slice0.lean ====
section
/-! SUPPORT. Tests with expected results from the spec (95_test_vectors.md and the examples of the rules), the smoke test of the
range checks, and one witness for the hypotheses of each statement that has some. -/

namespace Sys2Proof.Tests

open Sys2Proof Sys2Proof.Machine

/-! ### Range checks: an ill-formed term for each -/

theorem test_regInRange_refuses : regInRange 16 = false ∧ regInRange 15 = true := by decide
theorem test_byteInRange_refuses : byteInRange 256 = false ∧ byteInRange 255 = true := by decide
theorem test_wordInRange_refuses : wordInRange 4294967296 = false ∧ wordInRange 4294967295 = true := by decide
theorem test_wellFormed_at_the_bounds : (Instr.gaddi 15 0 255#8).wellFormed = true := by decide

/-! ### Decoding: one word written out per row of 30_encoding.md R74 -/

theorem test_decode_nop : decode 0b00000001000000000000000000000000#32 = .command .nop := by decide
theorem test_decode_invb : decode 0b00000010000000000000000000000000#32 = .command .invb := by decide
theorem test_decode_gadd : decode 0b00010000011000010010000000000000#32 = .command (.gadd 6 1 2) := by decide
theorem test_decode_gsub : decode 0b00010001011101100010000000000000#32 = .command (.gsub 7 6 2) := by decide
theorem test_decode_gmul : decode 0b00010010001100010010000000000000#32 = .command (.gmul 3 1 2) := by decide
theorem test_decode_gdiv : decode 0b00010011010000110010000000000000#32 = .command (.gdiv 4 3 2) := by decide
theorem test_decode_ginv : decode 0b00010100010100100000000000000000#32 = .command (.ginv 5 2) := by decide
theorem test_decode_gaddi : decode 0b00011000001000010000000011111111#32 = .command (.gaddi 2 1 0xFF#8) := by decide
theorem test_decode_gmuli : decode 0b00011010001100010000000000010011#32 = .command (.gmuli 3 1 0x13#8) := by decide
theorem test_decode_gli : decode 0b00011100111100000000000011111111#32 = .command (.gli 15 0xFF#8) := by decide
theorem test_decode_pcset : decode 0b00100000000111110000000000000001#32 = .command (.pcset 1#8 0x1F#8) := by decide
theorem test_decode_pcst : decode 0b00100001000000100000000000000010#32 = .command (.pcst 2#8 2) := by decide
theorem test_decode_pcld : decode 0b00100010100100000000000011001000#32 = .command (.pcld 9 200#8) := by decide
theorem test_decode_peval : decode 0b00101000001000010000000000000011#32 = .command (.peval 2 1 3#8) := by decide
theorem test_decode_pevali : decode 0b00101001010000000000010000000011#32 = .command (.pevali 4 4#8 3#8) := by decide
theorem test_decode_lpset : decode 0b00110000000001010001100000000010#32 = .command (.lpset 2#8 5#8 0x18#8) := by decide
theorem test_decode_lpst : decode 0b00110001000000010010000000000001#32 = .command (.lpst 1#8 1 2) := by decide
theorem test_decode_lpldx : decode 0b00110010001100000000000000000010#32 = .command (.lpldx 3 2#8) := by decide
theorem test_decode_lpldy : decode 0b00110011001100000000000000000010#32 = .command (.lpldy 3 2#8) := by decide
theorem test_decode_lagr : decode 0b00111000011000000000000000000011#32 = .command (.lagr 6 3#8) := by decide

/-- The illegal words of 95_test_vectors.md, with the reason each is illegal. -/
theorem test_decode_unassigned : [0x00000000#32, 0x40000000#32, 0x3FFFFFFF#32, 0xFFFFFFFF#32].all
    (fun w => decide (decode w = .illegal .unassignedOpcode)) = true := by decide
theorem test_decode_mustBeZero : [0x01000001#32, 0x10000001#32, 0x12312001#32, 0x02800000#32, 0x14001000#32, 0x18000100#32,
    0x1C010000#32, 0x20000100#32, 0x21100000#32, 0x29010000#32, 0x310F0100#32].all
    (fun w => decide (decode w = .illegal .mustBeZero)) = true := by decide

/-- The match and mask columns of 30_encoding.md R74. -/
theorem test_opcode_rows : Opcode.all.map (fun o => (o.pattern, o.mask)) =
    [(0x01000000#32, 0xFFFFFFFF#32), (0x02000000#32, 0xFFFFFFFF#32), (0x10000000#32, 0xFF000FFF#32),
     (0x11000000#32, 0xFF000FFF#32), (0x12000000#32, 0xFF000FFF#32), (0x13000000#32, 0xFF000FFF#32),
     (0x14000000#32, 0xFF00FFFF#32), (0x18000000#32, 0xFF00FF00#32), (0x1A000000#32, 0xFF00FF00#32),
     (0x1C000000#32, 0xFF0FFF00#32)] ++
    [(0x20000000#32, 0xFF00FF00#32), (0x21000000#32, 0xFFF0FF00#32), (0x22000000#32, 0xFF0FFF00#32),
     (0x28000000#32, 0xFF00FF00#32), (0x29000000#32, 0xFF0F0000#32), (0x30000000#32, 0xFF000000#32),
     (0x31000000#32, 0xFFF00F00#32), (0x32000000#32, 0xFF0FFF00#32), (0x33000000#32, 0xFF0FFF00#32),
     (0x38000000#32, 0xFF0FFF00#32)] := by decide
theorem test_decodeTableWord : decodeTableWord 32 0x12312000 = some (.gmul 3 1 2) ∧ decodeTableWord 32 0 = none := by decide
theorem test_decodeBytes : decodeBytes [0x00#8, 0x20#8, 0x31#8, 0x12#8] = some (.command (.gmul 3 1 2)) := by decide

/-! ### One step of a placed word (95_test_vectors.md, command-level vectors) -/

/-- The state after the next step, which runs the placed word. -/
def after (w : Nat) (s : State) : State :=
  match step (s.withFetchWord 32 w) with
  | .next t => t
  | .fault _ => s
  | .refused _ => s

/-- The reset state with some registers preloaded. -/
def regs : List (RegIdx × Byte) → State
  | [] => State.reset
  | (r, v) :: rest => (regs rest).setReg r v

/-- The reset state with COEF[0..2] = 42, 1F, A7. -/
def poly : State := ((State.reset.setCoef 0#8 0x42#8).setCoef 1#8 0x1F#8).setCoef 2#8 0xA7#8

/-- The reset state with the points (2, D6), (4, A0), (5, 18). -/
def points : State := ((State.reset.setPoint 0#8 2#8 0xD6#8).setPoint 1#8 4#8 0xA0#8).setPoint 2#8 5#8 0x18#8

/-- The reset state with the points (3, 11), (3, 12). -/
def duplicated : State := (State.reset.setPoint 0#8 3#8 0x11#8).setPoint 1#8 3#8 0x12#8

theorem test_nop : (after 0x01000000 { State.reset with lastErr := 1#4, stickyErr := true }).status = 0x00000008#32 := by decide
theorem test_invb : (after 0x02000000 State.reset).status = 0x00000002#32 := by decide
theorem test_illegal_invb : (after 0x02800000 State.reset).status = 0x00000208#32 := by decide
theorem test_gadd : (after 0x10612000 (regs [(1, 0x57#8), (2, 0x83#8)])).reg 6 = 0xD4#8 := by decide
theorem test_gadd_same : (after 0x10111000 (regs [(1, 0x57#8)])).result = 0#32 := by decide
theorem test_gsub : (after 0x11762000 (regs [(6, 0xD4#8), (2, 0x83#8)])).reg 7 = 0x57#8 := by decide
theorem test_gmul : (after 0x12312000 (regs [(1, 0x57#8), (2, 0x83#8)])).reg 3 = 0xC1#8 := by decide
theorem test_gmul_square : (after 0x12111000 (regs [(1, 0x57#8)])).reg 1 = 0xA5#8 := by decide
theorem test_gdiv : (after 0x13432000 (regs [(3, 0xC1#8), (2, 0x83#8)])).reg 4 = 0x57#8 := by decide +kernel
theorem test_gdiv_by_zero : (after 0x13918000 (regs [(1, 0x57#8)])).status = 0x0000010A#32 := by decide
theorem test_ginv : (after 0x14110000 (regs [(1, 0x02#8)])).reg 1 = 0x8D#8 := by decide
theorem test_ginv_of_zero : (after 0x14500000 State.reset).status = 0x0000010A#32 := by decide
theorem test_gaddi : (after 0x182100FF (regs [(1, 0x57#8)])).reg 2 = 0xA8#8 := by decide
theorem test_gmuli : (after 0x1A310013 (regs [(1, 0x57#8)])).result = 0xFE#32 := by decide
theorem test_gli : (after 0x1CF000FF State.reset).reg 15 = 0xFF#8 := by decide
theorem test_pcset : (after 0x207700FF State.reset).coef.read 255 = 0x77#8 := by decide
theorem test_pcst : (after 0x21020002 (regs [(2, 0xA7#8)])).coef.read 2 = 0xA7#8 := by decide
theorem test_pcld : (after 0x22900000 poly).result = 0x42#32 := by decide
theorem test_peval : (after 0x28110003 (poly.setReg 1 0x04#8)).reg 1 = 0xA0#8 := by decide
theorem test_pevali : (after 0x29400001 poly).reg 4 = 0x42#8 := by decide
theorem test_lpset : (after 0x30051802 State.reset).px.read 2 = 0x05#8 := by decide
theorem test_lpst : (after 0x31012001 (regs [(1, 0x04#8), (2, 0xA0#8)])).py.read 1 = 0xA0#8 := by decide
theorem test_lpldx : (after 0x32300002 points).reg 3 = 0x05#8 := by decide
theorem test_lpldy : (after 0x33300002 points).reg 3 = 0x18#8 := by decide
theorem test_lagr : (after 0x38600003 points).reg 6 = 0x42#8 := by decide +kernel
theorem test_lagr_duplicate : (after 0x38600002 duplicated).status = 0x0000010A#32 := by decide

/-- Products of 95_test_vectors.md, the FIPS-197 rows among them. -/
theorem test_products : gmul 0x57#8 0x13#8 = 0xFE#8 ∧ gmul 0x80#8 0x80#8 = 0x9A#8 ∧ gmul 0xFF#8 0xFF#8 = 0x13#8 ∧
    gmul 0x53#8 0xCA#8 = 0x01#8 := by decide
/-- Quotients of 95_test_vectors.md. -/
theorem test_quotients : gdiv 0x57#8 0x83#8 = 0x38#8 ∧ gdiv 0x05#8 0x07#8 = 0xB8#8 := by decide +kernel
/-- geval(3, 0xFF) of 95_test_vectors.md. -/
theorem test_geval : geval poly.coef 3 0xFF#8 = 0x35#8 := by decide
/-- Too few points of 95_test_vectors.md: (2, D6), (4, A0) give 0D. -/
theorem test_too_few_points : lagrangeValue points.px points.py 2 = 0x0D#8 := by decide +kernel

/-! ### The host port -/

/-- ID and PARAM (10_state.md R32, R33). -/
theorem test_constants : Config.idWord = 0x47460100#32 ∧ Config.paramWord = 0x00FF101B#32 := by decide
/-- The window at BASE: the offset of BASE + 0x14 is CTRL's (20_memory.md R51). -/
theorem test_window_offset : windowOffset (Config.base + 0x14) = some 0x14#8 := by
  simp [windowOffset, Config.windowSize]
/-- An address just past the window does not reach the block (20_memory.md R51). -/
theorem test_outside_window : accessAtAddress .word (Config.base + 0x100) .read = none := by
  simp [accessAtAddress, windowOffset, Config.windowSize]

/-- A block whose next inputs are a GDIV by zero, the visible start and end of its build with STATUS reads between, and a RESULT
read: the replies are the STATUS values of 70_reset_and_hazards.md R407. -/
def watched : State := { State.reset with inputs := [
  .access (cmdWrite 0x13112000#32), .access statusRead, .progress .buildStarts, .access statusRead, .progress .buildEnds,
  .access statusRead, .access resultRead, .progress .completes] }
theorem test_status_during_command : (match Host.Core.run Sys2Proof.core 9 watched with
    | .next t => t.replies
    | _ => []) = [.written, .data 1#32, .data 5#32, .data 3#32, .data 0#32] := by decide

/-! ### The assembler (30_encoding.md R80 to R86) -/

theorem test_assemble_command : assembleLine "GMUL R3, r1,r2 ; comment".toList = .ok (some 0x12312000#32) := by decide
theorem test_assemble_hex : assembleLine "lpset 2, 5, 0x18".toList = .ok (some 0x30051802#32) := by decide
theorem test_assemble_gout : assembleLine "gout r1".toList = .ok (some 0x18110000#32) := by decide
theorem test_assemble_word : assembleLine ".word 0x12312001".toList = .ok (some 0x12312001#32) := by decide
theorem test_assemble_out_of_range : assembleLine "gli r1, 256".toList = .error .badImmediate ∧
    assembleLine "gli r16, 1".toList = .error .badRegister := by decide
theorem test_assemble_empty : assemble ["; only a comment".toList, "nop".toList] = .ok [0x01000000#32] := by decide

/-! ### Witnesses: a state and operands that meet each statement's hypotheses -/

/-- A command in progress. -/
def busyWith (w : Word) : State := State.reset.accept w

theorem tableSound_reset : State.reset.TableSound := fun h => by cases h

theorem witness_EncodeOfDecodeIsTheWord : decode 0x28110003#32 = .command (.peval 1 1 3#8) := by decide
theorem witness_IllegalWordsAreExactlyThese : (busyWith 0#32).active = some { word := 0#32, building := false } ∧
    decode 0#32 = .illegal .unassignedOpcode ∧ decode 0x14001000#32 = .illegal .mustBeZero := by decide
theorem witness_IllegalWordOnlyRaises : (busyWith 0x01000001#32).active = some { word := 0x01000001#32, building := false } ∧
    decode 0x01000001#32 = .illegal .mustBeZero := by decide
theorem witness_AssembledCommandsAreLegal : "gli".toList ≠ ".word".toList ∧
    assembleOp "gli".toList ["r1".toList, "0x57".toList] = .ok 0x1C100057#32 := by decide
theorem witness_PseudoInstructionsDoWhatTheyName : poly.coef.wf = true := by decide
theorem witness_InvbBuildsTheTable : State.reset.TableSound ∧ State.reset.build.TableSound ∧
    State.reset.build.invValid = true := ⟨tableSound_reset, State.tableSound_build _, rfl⟩
theorem witness_BuildRunsOnFirstNeedOnly : State.reset.invValid = false := rfl
theorem witness_LookupIsTheUniqueInverse : State.reset.build.TableSound ∧ State.reset.build.invValid = true ∧
    (0x53#8 : Byte) ≠ 0#8 ∧ gmul 0x53#8 0xCA#8 = 1#8 := ⟨State.tableSound_build _, rfl, by decide, by decide⟩
theorem witness_BuiltTableIsThePrintedTable : (0x01#8 : Byte) ≠ 0#8 ∧ ginv 0x01#8 = 0x01#8 ∧ ginv 0x02#8 ≠ 0x02#8 := by
  decide
theorem witness_UnbuiltTableIsUnobservable : State.reset.invValid = false ∧
    ({ State.reset with inv := [(1, 5#8)] } : State) ≠ State.reset := by decide
theorem witness_GmulObeysTheFieldLaws : gmul 0#8 5#8 = 0#8 ∧ (0xFF#8 : Byte) ≠ 0#8 ∧ gpow 0x02#8 1 ≠ 1#8 ∧
    gpow 0x02#8 50 ≠ 1#8 := by decide +kernel
theorem witness_AdditionAndDivisionUndoThemselves : (0xFF#8 : Byte) ≠ 0#8 ∧ (0x01#8 : Byte) ≠ 0#8 := by decide
theorem witness_GaddXorsTwoRegisters : (regs [(1, 0x57#8)]).reg 1 ^^^ (regs [(1, 0x57#8)]).reg 1 = 0#8 := by decide
theorem witness_GmulMultipliesTwoRegisters : (regs [(1, 1#8)]).reg 0 = 0#8 ∧ (regs [(1, 1#8)]).reg 1 = 1#8 := by decide
theorem witness_GdivDividesOrRaises : (regs [(1, 3#8), (2, 3#8)]).TableSound ∧ (regs [(1, 3#8), (2, 3#8)]).reg 0 = 0#8 ∧
    (regs [(1, 3#8), (2, 3#8)]).reg 2 ≠ 0#8 ∧ (regs [(1, 3#8), (2, 3#8)]).reg 1 = (regs [(1, 3#8), (2, 3#8)]).reg 2 ∧
    (State.reset.build.setReg 2 3#8).TableSound :=
  ⟨fun h => (by cases h), by decide, by decide, by decide, State.tableSound_build State.reset⟩
theorem witness_GinvInvertsOrRaises : (regs [(1, 2#8)]).TableSound ∧ (regs [(1, 2#8)]).reg 0 = 0#8 ∧
    (regs [(1, 2#8)]).reg 1 ≠ 0#8 := ⟨fun h => (by cases h), by decide, by decide⟩
theorem witness_PcsetStoresAnImmediate : State.reset.coef.wf = true ∧ poly.coef.wf = true ∧
    geval (poly.setCoef 0xFF#8 7#8).coef (0xFF#8 : Byte).toNat 1#8 = geval poly.coef (0xFF#8 : Byte).toNat 1#8 := by
  decide +kernel
theorem witness_PcstStoresARegister : (poly.setReg 2 7#8).coef.wf = true := by decide
theorem witness_PevalEvaluatesAtARegister : (0#8 : Byte).toNat = 0 ∧ (1#8 : Byte) ≠ 0#8 ∧ poly.reg 1 = 0#8 := by decide
theorem witness_PevaliEvaluatesAtAnImmediate : geval poly.coef 1 0x77#8 = 0x42#8 ∧ geval poly.coef 3 0#8 = 0x42#8 := by
  decide
theorem witness_GevalCornerCases : geval poly.coef 1 0#8 = 0x42#8 ∧ geval poly.coef 3 1#8 = 0xFA#8 := by decide
theorem witness_LpsetStoresAPoint : points.px.wf = true ∧ points.py.wf = true ∧
    (points.setPoint 0xFF#8 7#8 9#8).px.read 255 = 7#8 := by decide
theorem witness_LpstStoresTwoRegisters : (points.setReg 1 9#8).px.wf = true ∧ (points.setReg 1 9#8).py.wf = true := by decide
theorem duplicated_duplicate : DuplicateX duplicated.px 2 := ⟨0, 1, by decide, by decide, by decide, by decide⟩
theorem points_distinct : ¬ DuplicateX points.px 3 := fun h =>
  absurd ((hasDuplicate_iff points.px 3).2 h) (by decide)
theorem no_duplicate_in_one (px : Memory) (n : Nat) (hn : n ≤ 1) : ¬ DuplicateX px n := by
  rintro ⟨j, k, hj, hk, hne, _⟩; omega
theorem witness_LagrReconstructsOrRaises : duplicated.TableSound ∧ DuplicateX duplicated.px (2#8 : Byte).toNat ∧
    points.TableSound ∧ ¬ DuplicateX points.px (3#8 : Byte).toNat ∧ ¬ DuplicateX points.px (0#8 : Byte).toNat ∧
    ¬ DuplicateX points.px (1#8 : Byte).toNat :=
  ⟨fun h => (by cases h), duplicated_duplicate, fun h => (by cases h), points_distinct, no_duplicate_in_one _ _ (by decide),
    no_duplicate_in_one _ _ (by decide)⟩
theorem witness_GlagrRaisesExactlyOnDuplicates : glagr [] duplicated.px duplicated.py 2 = .error .divByZero ∧
    ¬ DuplicateX points.px 3 := ⟨rfl, points_distinct⟩
/-- The points (0, 99), (3, 11) of 95_test_vectors.md. -/
theorem witness_GlagrOnSpecialPointSets : InverseTable builtTable ∧
    (let p := (State.reset.setPoint 0#8 0#8 0x99#8).setPoint 1#8 3#8 0x11#8
     ¬ DuplicateX p.px 2 ∧ p.px.read 0 = 0#8) :=
  ⟨State.tableSound_build State.reset rfl, fun h => absurd ((hasDuplicate_iff _ 2).2 h) (by decide), by decide⟩
/-- The shares (2, D6), (4, A0), (5, 18) of the polynomial 42, 1F, A7 (95_test_vectors.md). -/
theorem witness_ReconstructionGivesTheSecret :
    (let s : State := { points with coef := poly.coef }
     s.TableSound ∧ 1 ≤ 3 ∧ 3 ≤ (3#8 : Byte).toNat ∧ ¬ DuplicateX s.px (3#8 : Byte).toNat ∧
     ∀ j, j < 3 → s.py.read j = geval s.coef 3 (s.px.read j)) :=
  ⟨fun h => (by cases h), by decide, by decide, points_distinct, by decide⟩
theorem witness_ReconstructionIgnoresPointOrder : InverseTable builtTable ∧
    ∀ j : Fin 2, Memory.read [(0, 4#8), (1, 2#8)] j = Memory.read [(0, 2#8), (1, 4#8)] (Equiv.swap (0 : Fin 2) 1 j) ∧
      Memory.read [(0, 7#8), (1, 6#8)] j = Memory.read [(0, 6#8), (1, 7#8)] (Equiv.swap (0 : Fin 2) 1 j) :=
  ⟨State.tableSound_build State.reset rfl, by decide⟩
theorem witness_DivByZeroIsRaisedExactlyThen : DividesByZero State.reset (.gdiv 1 2 0) ∧
    exec (.gdiv 1 2 0) State.reset = .next (State.reset.build.complete .divByZero) := ⟨rfl, rfl⟩
theorem witness_CommandsChangeNothingElse : poly.MemoriesCanonical ∧
    exec .nop poly = .next (poly.complete .ok) ∧ (poly.complete .ok).lastErr = 0#4 ∧
    exec (.ginv 1 0) State.reset = .next (State.reset.build.complete .divByZero) ∧
    (State.reset.build.complete .divByZero).lastErr ≠ 0#4 := ⟨⟨rfl, by decide, by decide, rfl⟩, rfl, rfl, rfl, by decide⟩
/-- GLI in progress, with a STATUS read next. -/
def watchedGli : State := { busyWith 0x1C100057#32 with inputs := [.access statusRead] }
theorem witness_NoWriteIsVisibleBeforeCompletion : watchedGli.busy = true ∧
    step watchedGli = .next { watchedGli with inputs := [], replies := [.data 1#32] } := ⟨rfl, rfl⟩
/-- INVB in progress with a CMD write held, and the power-on reset input next. -/
def poweredOn : State :=
  { busyWith 0x02000000#32 with held := some (cmdWrite 0x01000000#32), inputs := [.powerOnReset, .access statusRead] }
theorem witness_ResetsLeaveTheResetState : poly.softReset = State.reset ∧ poweredOn.busy = true ∧
    poweredOn.inputs = .powerOnReset :: [.access statusRead] ∧
    ({ poly with inputs := [.powerOnReset] } : State).held = none ∧
    step poweredOn = .next { State.reset with inputs := [.access statusRead] } := ⟨by decide, rfl, rfl, rfl, rfl⟩
theorem witness_SoftResetAbandonsTheCommand :
    (let s : State := { busyWith 0x02000000#32 with held := some (cmdWrite 0x01000000#32), inputs := [.access (ctrlWrite 1#32)] }
     s.busy = true ∧ (1#32).getLsbD 0 = true ∧ s.inputs = .access (ctrlWrite 1#32) :: [] ∧
     s.held = some (cmdWrite 0x01000000#32)) ∧
    ({ busyWith 0x02000000#32 with held := some resultRead } : State).held = some resultRead := by decide
theorem witness_IllegalAccessesGetABusError :
    (Width.half ≠ .word ∧ (0x0E#8 : Byte).toNat % 4 ≠ 0 ∧ watchedGli.busy = true ∧ State.reset.held = none) := by decide
theorem witness_WindowReadsAndIgnoredWrites : (0xFC#8 : Byte).toNat % 4 = 0 ∧ (0x00#8 : Byte).toNat % 4 = 0 ∧
    (0x10#8 : Byte) ≠ 0x08#8 ∧ (0x10#8 : Byte) ≠ 0x14#8 ∧
    (watchedGli.busy = true ∧ statusRead.heldByBusy = false ∧ watchedGli.inputs = .access statusRead :: []) ∧
    (let s : State := { State.reset with inputs := [.access resultRead] }
     s.busy = false ∧ s.held = none ∧ s.inputs = .access resultRead :: []) ∧
    (State.reset.busy = false ∧ State.reset.held = none ∧ State.reset.inputs = []) ∧
    ({ State.reset with inputs := [.progress .completes] } : State).inputs = .progress .completes :: [] := by decide
theorem witness_CtrlWritesActAtOnce :
    (let s : State := { busyWith 0x01000000#32 with inputs := [.access (ctrlWrite 2#32)] }
     s.busy = true ∧ s.inputs = .access (ctrlWrite 2#32) :: []) ∧ (3#32).getLsbD 0 = true ∧ (2#32).getLsbD 0 = false := by
  decide
/-- NOP in progress, a CMD write held and another one next. -/
def crowded : State :=
  { busyWith 0x01000000#32 with held := some (cmdWrite 0x02000000#32), inputs := [.access (cmdWrite 0x01000000#32)] }
theorem witness_CommandWritesAreHeldWhileBusy :
    (let s : State := { busyWith 0x01000000#32 with inputs := [.access (cmdWrite 0x01000000#32)] }
     s.busy = true ∧ s.held = none ∧ s.inputs = .access (cmdWrite 0x01000000#32) :: []) ∧
    (let s : State := { watchedGli with held := some resultRead }
     s.busy = true ∧ s.held = some resultRead ∧ step s = .next { s with inputs := [], replies := [.data 1#32] }) ∧
    (crowded.busy = true ∧ crowded.held = some (cmdWrite 0x02000000#32) ∧
     crowded.inputs = .access (cmdWrite 0x01000000#32) :: []) ∧
    (let s : State := { State.reset with held := some (cmdWrite 0x01000000#32) }
     s.busy = false ∧ s.held = some (cmdWrite 0x01000000#32)) ∧
    (let s : State := { State.reset with inputs := [.access (cmdWrite 0x01000000#32)] }
     s.busy = false ∧ s.held = none ∧ s.inputs = .access (cmdWrite 0x01000000#32) :: []) :=
  ⟨by decide, ⟨rfl, rfl, rfl⟩, by decide, by decide, by decide⟩
theorem witness_ResultReadWaitsForTheCommand :
    (let s : State := { busyWith 0x1C100057#32 with inputs := [.access resultRead] }
     s.busy = true ∧ s.held = none ∧ s.inputs = .access resultRead :: []) ∧
    (let s : State := { poly with held := some resultRead }
     s.busy = false ∧ s.held = some resultRead) ∧
    (let s : State := { State.reset with
      inputs := [.access (cmdWrite 0x1C100057#32), .access resultRead, .progress .completes] }
     s.busy = false ∧ s.held = none ∧
     s.inputs = .access (cmdWrite 0x1C100057#32) :: .access resultRead :: .progress .completes :: []) := by decide
theorem witness_StatusReadsAreNeverHeld : watchedGli.busy = true ∧ watchedGli.inputs = .access statusRead :: [] := by decide
theorem witness_StepRunsTheDecodedCommand : (busyWith 0x01000000#32).active = some { word := 0x01000000#32, building := false } ∧
    decode 0x01000000#32 = .command .nop ∧ (busyWith 0x01000000#32).inputs = [] ∧
    ({ busyWith 0x01000000#32 with inputs := [.progress .completes] } : State).inputs = .progress .completes :: [] ∧
    (crowded.active = some { word := 0x01000000#32, building := false } ∧ crowded.held = some (cmdWrite 0x02000000#32) ∧
     crowded.inputs = .access (cmdWrite 0x01000000#32) :: []) ∧ decode 0#32 = .illegal .unassignedOpcode := by decide
theorem witness_heldByBusy : (cmdWrite 0x01000000#32).heldByBusy = true := cmdWrite_heldByBusy _
/-- INVB in progress with its build running. -/
def building : State := { State.reset with active := some { word := 0x02000000#32, building := true } }
theorem building_sound : building.BuildSound := by
  intro c hc _
  cases hc
  exact ⟨rfl, by decide⟩
theorem witness_VisibleInstantsDoNotChangeTheOutcome : building.BuildSound ∧ building.invBuilding = true ∧
    (let s : State := { busyWith 0x02000000#32 with inputs := [.progress .buildStarts] }
     s.active = some { word := 0x02000000#32, building := false } ∧ decode 0x02000000#32 = .command .invb ∧
     s.inputs = .progress .buildStarts :: [] ∧ step s = .next building) ∧
    (let s : State := { building with inputs := [.progress .buildEnds] }
     s.active = some { word := 0x02000000#32, building := true } ∧ s.inputs = .progress .buildEnds :: [] ∧
     step s = .next { s with
       inputs := [], inv := builtTable, invValid := true, active := some { word := 0x02000000#32, building := false } }) :=
  ⟨building_sound, rfl, ⟨rfl, by decide, rfl, rfl⟩, rfl, rfl, rfl⟩
theorem witness_CommandsRunOneAtATimeInOrder : poly.busy = false ∧ poly.held = none ∧ poly.inputs = [] := by decide
/-- A sound state that is not the reset state, and the step it takes. -/
theorem witness_StepKeepsSound : building.Sound ∧ step building = .next (building.build.complete .ok) :=
  ⟨⟨⟨rfl, rfl, rfl, rfl⟩, fun h => (by cases h), rfl, ⟨by decide, fun h => (by cases h rfl)⟩, building_sound, fun _ h => (by cases h)⟩,
    rfl⟩
theorem witness_SoundStatesRunSafely : building.Sound := witness_StepKeepsSound.1

end Sys2Proof.Tests
end

section
/-! PROOF. The statements of 00_scope.md: a command's round trip through its word, the one step of a word about to run, and what a
command in progress has not yet written. -/

namespace Sys2Proof

/-! ### The operand fields of each layout (30_encoding.md R71, R72) -/

section Fields
variable (o : Opcode) (rd rs1 rs2 : RegIdx) (itop ihi imm : Byte)

@[simp] theorem fields_layoutR : fieldRd (layoutR o rd rs1 rs2) = rd ∧ fieldRs1 (layoutR o rd rs1 rs2) = rs1 ∧
    fieldRs2 (layoutR o rd rs1 rs2) = rs2 := by
  simp only [layoutR, fieldRd, fieldRs1, fieldRs2, BitVec.extractLsb'_append_eq_ite]
  simp [regBits]

@[simp] theorem fields_layoutU : fieldRd (layoutU o rd rs1) = rd ∧ fieldRs1 (layoutU o rd rs1) = rs1 := by
  simp only [layoutU, fieldRd, fieldRs1, BitVec.extractLsb'_append_eq_ite]
  simp [regBits]

@[simp] theorem fields_layoutI : fieldRd (layoutI o rd rs1 imm) = rd ∧ fieldRs1 (layoutI o rd rs1 imm) = rs1 ∧
    fieldImm (layoutI o rd rs1 imm) = imm := by
  simp only [layoutI, fieldRd, fieldRs1, fieldImm, BitVec.extractLsb'_append_eq_ite]
  simp [regBits]

@[simp] theorem fields_layoutL : fieldRd (layoutL o rd imm) = rd ∧ fieldImm (layoutL o rd imm) = imm := by
  simp only [layoutL, fieldRd, fieldImm, BitVec.extractLsb'_append_eq_ite]
  simp [regBits]

@[simp] theorem fields_layoutE : fieldRd (layoutE o rd ihi imm) = rd ∧ fieldIhi (layoutE o rd ihi imm) = ihi ∧
    fieldImm (layoutE o rd ihi imm) = imm := by
  simp only [layoutE, fieldRd, fieldIhi, fieldImm, BitVec.extractLsb'_append_eq_ite]
  simp [regBits]

@[simp] theorem fields_layoutS : fieldItop (layoutS o itop imm) = itop ∧ fieldImm (layoutS o itop imm) = imm := by
  simp only [layoutS, fieldItop, fieldImm, BitVec.extractLsb'_append_eq_ite]
  simp

@[simp] theorem fields_layoutP : fieldItop (layoutP o itop ihi imm) = itop ∧ fieldIhi (layoutP o itop ihi imm) = ihi ∧
    fieldImm (layoutP o itop ihi imm) = imm := by
  simp only [layoutP, fieldItop, fieldIhi, fieldImm, BitVec.extractLsb'_append_eq_ite]
  simp

@[simp] theorem fields_layoutMS : fieldRs1 (layoutMS o rs1 imm) = rs1 ∧ fieldImm (layoutMS o rs1 imm) = imm := by
  simp only [layoutMS, fieldRs1, fieldImm, BitVec.extractLsb'_append_eq_ite]
  simp [regBits]

@[simp] theorem fields_layoutMP : fieldRs1 (layoutMP o rs1 rs2 imm) = rs1 ∧ fieldRs2 (layoutMP o rs1 rs2 imm) = rs2 ∧
    fieldImm (layoutMP o rs1 rs2 imm) = imm := by
  simp only [layoutMP, fieldRs1, fieldRs2, fieldImm, BitVec.extractLsb'_append_eq_ite]
  simp [regBits]

/-! ### The mask of each layout (30_encoding.md R72, R74) -/

theorem toNat_append_zero {n : Nat} (x : BitVec n) (k : Nat) : (x ++ 0#k).toNat = x.toNat <<< k := by
  simp [BitVec.toNat_append]

@[simp] theorem layoutR_and_mask : layoutR o rd rs1 rs2 &&& Format.R.mask = o.pattern := by
  show (o.code ++ regBits rd ++ regBits rs1 ++ regBits rs2 ++ 0#12) &&&
    (BitVec.allOnes 8 ++ 0#4 ++ 0#4 ++ 0#4 ++ BitVec.allOnes 12) = o.code ++ 0#24
  simp only [BitVec.and_append, BitVec.and_allOnes, BitVec.and_zero, ← BitVec.toNat_inj, toNat_append_zero,
    ← Nat.shiftLeft_add]

@[simp] theorem layoutU_and_mask : layoutU o rd rs1 &&& Format.U.mask = o.pattern := by
  show (o.code ++ regBits rd ++ regBits rs1 ++ 0#16) &&&
    (BitVec.allOnes 8 ++ 0#4 ++ 0#4 ++ BitVec.allOnes 16) = o.code ++ 0#24
  simp only [BitVec.and_append, BitVec.and_allOnes, BitVec.and_zero, ← BitVec.toNat_inj, toNat_append_zero,
    ← Nat.shiftLeft_add]

@[simp] theorem layoutI_and_mask : layoutI o rd rs1 imm &&& Format.I.mask = o.pattern := by
  show (o.code ++ regBits rd ++ regBits rs1 ++ 0#8 ++ imm) &&&
    (BitVec.allOnes 8 ++ 0#4 ++ 0#4 ++ BitVec.allOnes 8 ++ 0#8) = o.code ++ 0#24
  simp only [BitVec.and_append, BitVec.and_allOnes, BitVec.and_zero, ← BitVec.toNat_inj, toNat_append_zero,
    ← Nat.shiftLeft_add]

@[simp] theorem layoutL_and_mask : layoutL o rd imm &&& Format.L.mask = o.pattern := by
  show (o.code ++ regBits rd ++ 0#12 ++ imm) &&&
    (BitVec.allOnes 8 ++ 0#4 ++ BitVec.allOnes 12 ++ 0#8) = o.code ++ 0#24
  simp only [BitVec.and_append, BitVec.and_allOnes, BitVec.and_zero, ← BitVec.toNat_inj, toNat_append_zero,
    ← Nat.shiftLeft_add]

@[simp] theorem layoutE_and_mask : layoutE o rd ihi imm &&& Format.E.mask = o.pattern := by
  show (o.code ++ regBits rd ++ 0#4 ++ ihi ++ imm) &&&
    (BitVec.allOnes 8 ++ 0#4 ++ BitVec.allOnes 4 ++ 0#8 ++ 0#8) = o.code ++ 0#24
  simp only [BitVec.and_append, BitVec.and_allOnes, BitVec.and_zero, ← BitVec.toNat_inj, toNat_append_zero,
    ← Nat.shiftLeft_add]

@[simp] theorem layoutS_and_mask : layoutS o itop imm &&& Format.S.mask = o.pattern := by
  show (o.code ++ itop ++ 0#8 ++ imm) &&&
    (BitVec.allOnes 8 ++ 0#8 ++ BitVec.allOnes 8 ++ 0#8) = o.code ++ 0#24
  simp only [BitVec.and_append, BitVec.and_allOnes, BitVec.and_zero, ← BitVec.toNat_inj, toNat_append_zero,
    ← Nat.shiftLeft_add]

@[simp] theorem layoutP_and_mask : layoutP o itop ihi imm &&& Format.P.mask = o.pattern := by
  show (o.code ++ itop ++ ihi ++ imm) &&&
    (BitVec.allOnes 8 ++ 0#8 ++ 0#8 ++ 0#8) = o.code ++ 0#24
  simp only [BitVec.and_append, BitVec.and_allOnes, BitVec.and_zero, ← BitVec.toNat_inj, toNat_append_zero,
    ← Nat.shiftLeft_add]

@[simp] theorem layoutMS_and_mask : layoutMS o rs1 imm &&& Format.MS.mask = o.pattern := by
  show (o.code ++ 0#4 ++ regBits rs1 ++ 0#8 ++ imm) &&&
    (BitVec.allOnes 8 ++ BitVec.allOnes 4 ++ 0#4 ++ BitVec.allOnes 8 ++ 0#8) = o.code ++ 0#24
  simp only [BitVec.and_append, BitVec.and_allOnes, BitVec.and_zero, ← BitVec.toNat_inj, toNat_append_zero,
    ← Nat.shiftLeft_add]

@[simp] theorem layoutMP_and_mask : layoutMP o rs1 rs2 imm &&& Format.MP.mask = o.pattern := by
  show (o.code ++ 0#4 ++ regBits rs1 ++ regBits rs2 ++ 0#4 ++ imm) &&&
    (BitVec.allOnes 8 ++ BitVec.allOnes 4 ++ 0#4 ++ 0#4 ++ BitVec.allOnes 4 ++ 0#8) = o.code ++ 0#24
  simp only [BitVec.and_append, BitVec.and_allOnes, BitVec.and_zero, ← BitVec.toNat_inj, toNat_append_zero,
    ← Nat.shiftLeft_add]

end Fields

/-! ### The round trip (30_encoding.md R74, R78) -/

theorem fieldOp_encode (i : Instr) : fieldOp (encode i) = i.opcode.code := by
  cases i with
  | nop | invb => exact fieldOp_append _ _
  | _ => simp [encode, Instr.opcode]

theorem encode_and_mask (i : Instr) : encode i &&& i.opcode.mask = i.opcode.pattern := by
  cases i with
  | nop | invb => rfl
  | _ => simp [encode, Instr.opcode, Opcode.mask, Opcode.format]

theorem operands_encode (i : Instr) : i.opcode.operands (encode i) = i := by
  cases i <;> simp [encode, Instr.opcode, Opcode.operands]

theorem decode_encode (i : Instr) : decode (encode i) = .command i := by
  rw [decode_of_fieldOp (fieldOp_encode i), if_pos (encode_and_mask i), operands_encode]

/-- A word given by its number is the word itself: no bit is lost at 32 bits. -/
@[simp] theorem tableWord_toNat (w : Word) : tableWord 32 w.toNat = w := by
  simp [tableWord, Nat.mod_eq_of_lt w.isLt]

@[simp] theorem decodeTableWord_encode (i : Instr) : decodeTableWord 32 (encode i).toNat = some i := by
  simp [decodeTableWord, decode_encode]

end Sys2Proof

namespace Sys2Proof.Machine

section Steps
variable (s : State)

/-! ### A word about to run -/

/-- The word given to `issue` is the command in progress of the next step, which runs it (00_scope.md R12). -/
theorem step_issue (w : Word) : step (s.issue w) = runCommand (s.accept w) := step_inputs (s.issue w) (.inl rfl)

/-! ### What a command in progress has not yet written -/

/-- `t` shows the registers, memories and RESULT of `s`, all that a command can write, and the same command word. -/
def State.SameWritten (t s : State) : Prop :=
  t.x = s.x ∧ t.coef = s.coef ∧ t.px = s.px ∧ t.py = s.py ∧ t.result = s.result ∧
  t.active.map (fun c => c.word) = s.active.map (fun c => c.word)

theorem State.SameWritten.refl : s.SameWritten s := ⟨rfl, rfl, rfl, rfl, rfl, rfl⟩

theorem build_sameWritten : s.build.SameWritten s :=
  ⟨rfl, rfl, rfl, rfl, rfl, by simp [Function.comp_def]⟩

theorem endBuild_sameWritten : s.endBuild.SameWritten s := by
  unfold State.endBuild
  split
  · exact build_sameWritten s
  · exact .refl s

theorem startBuild_sameWritten : s.startBuild.SameWritten s := by
  cases h : s.active with
  | none => rw [startBuild_idle s h]; exact .refl s
  | some c =>
    rw [startBuild_busy s h]
    split
    · exact ⟨rfl, rfl, rfl, rfl, rfl, by simp [h]⟩
    · exact .refl s

/-- An access that BUSY does not hold writes nothing of a command, unless it resets the block. -/
theorem perform_sameWritten {a : HostAccess} (ha : a.heldByBusy = false) :
    (s.perform a).SameWritten s ∨ (s.perform a).busy = false := by
  obtain ⟨r, h | ⟨w, hw, _⟩ | h | h⟩ := perform_cases s a
  · exact .inl (h ▸ .refl s)
  · simp [ha] at hw
  · exact .inr (h ▸ rfl)
  · exact .inl (h ▸ .refl s)

/-- A step of a busy block writes nothing of the command in progress, or ends it. -/
theorem step_sameWritten {t : State} (hb : s.busy = true) (h : step s = .next t) : t.SameWritten s ∨ t.busy = false := by
  obtain ⟨a, _, hn, _⟩ | ⟨_, ⟨rest, _, hr⟩ | ⟨rest, _, rfl⟩ | ⟨rest, _, rfl⟩ | ⟨rest, _, rfl⟩ |
    ⟨a, rest, _, _, _, _, rfl⟩ | ⟨a, rest, _, ha, rfl⟩⟩ := step_cases s h
  · simp [hb] at hn
  · obtain ⟨u, hu, hidle, _⟩ := runCommand_next { s with inputs := rest }
    cases hu.symm.trans hr
    exact .inr ((State.busy_eq_false_iff t).2 hidle)
  · exact .inl (startBuild_sameWritten { s with inputs := rest })
  · exact .inl (endBuild_sameWritten { s with inputs := rest })
  · exact .inr rfl
  · exact .inl (.refl s)
  · exact perform_sameWritten { s with inputs := rest } (ha.resolve_right (by simp [hb]))

end Steps

/-! ### The statements of 00_scope.md -/

/-- Settles O55: the round trip through the decoder, then the one step of an issued word. -/
theorem placedWordRunsNext : Obligations.PlacedWordRunsNext := by
  intro i s
  refine ⟨decodeTableWord_encode i, ?_⟩
  calc step (s.withFetchWord 32 (encode i).toNat)
    _ = step (s.issue (encode i)) := by rw [State.withFetchWord, tableWord_toNat]
    _ = runCommand (s.accept (encode i)) := step_issue s (encode i)
    _ = exec i (s.accept (encode i)) := runCommand_command _ rfl (decode_encode i)

/-- Settles O43: of the steps of a busy block, those that could show a write end the command. -/
theorem noWriteIsVisibleBeforeCompletion : Obligations.NoWriteIsVisibleBeforeCompletion := by
  intro s t hs h ht
  exact (step_sameWritten s hs h).resolve_right (by simp [ht])

end Sys2Proof.Machine
end

section
/-! PROOF. The statements of 10_state.md: the STATUS register, the CTRL register, what a command can write, the invariant that every
step keeps, and the table that nothing sees before it is built. -/

namespace Sys2Proof.Machine

/-! ### STATUS and CTRL -/

/-- Settles O48: each field is cut out of the concatenation that makes up STATUS. -/
theorem statusHoldsItsFields : Obligations.StatusHoldsItsFields := by
  intro s
  refine ⟨?_, ?_, ?_, ?_, ?_, ?_, ?_, by decide⟩
  all_goals
    simp only [State.status, BitVec.getLsbD_append, BitVec.extractLsb'_append_eq_ite]
    simp

/-- A CTRL write is performed at once: BUSY does not hold it (70_reset_and_hazards.md R407). -/
theorem step_ctrlWrite {s : State} {v : Word} {rest : List Input} (hc : s.busy = true ∨ s.held = none)
    (hi : s.inputs = .access (ctrlWrite v) :: rest) :
    step s = .next (({ s with inputs := rest }.writeCtrl v).answer .written) := by
  rw [step_inputs s hc, hi]
  simp [receive]

/-- Settles O49: the write is performed, and the three cases are those of `writeCtrl`. -/
theorem ctrlWritesActAtOnce : Obligations.CtrlWritesActAtOnce := by
  intro s v rest hc hi
  refine ⟨⟨[], ?_⟩, rfl⟩
  rw [step_ctrlWrite hc hi, State.writeCtrl]
  cases v.getLsbD 0 with
  | true => rfl
  | false => cases v.getLsbD 1 <;> rfl

/-! ### What a command can write -/

section Writes
variable (s : State) (i : Instr)

/-- The state whose staged writes command `i` completes: `s`, with its table built if `i` needs it (30_encoding.md R78). -/
def State.builtFor : State := if needsTable i.opcode then s.ensureBuilt else s

@[simp] theorem State.builtFor_x : (s.builtFor i).x = s.x := by unfold State.builtFor; split <;> simp
@[simp] theorem State.builtFor_reg (r : RegIdx) : (s.builtFor i).reg r = s.reg r := State.reg_congr (by simp) r
@[simp] theorem State.builtFor_coef : (s.builtFor i).coef = s.coef := by unfold State.builtFor; split <;> simp
@[simp] theorem State.builtFor_px : (s.builtFor i).px = s.px := by unfold State.builtFor; split <;> simp
@[simp] theorem State.builtFor_py : (s.builtFor i).py = s.py := by unfold State.builtFor; split <;> simp
@[simp] theorem State.builtFor_result : (s.builtFor i).result = s.result := by unfold State.builtFor; split <;> simp
@[simp] theorem State.builtFor_stickyErr : (s.builtFor i).stickyErr = s.stickyErr := by unfold State.builtFor; split <;> simp
@[simp] theorem State.builtFor_held : (s.builtFor i).held = s.held := by unfold State.builtFor; split <;> simp
@[simp] theorem State.builtFor_inputs : (s.builtFor i).inputs = s.inputs := by unfold State.builtFor; split <;> simp
@[simp] theorem State.builtFor_replies : (s.builtFor i).replies = s.replies := by unfold State.builtFor; split <;> simp

theorem State.builtFor_of_not_needsTable (h : needsTable i.opcode = false) : s.builtFor i = s := by simp [State.builtFor, h]

theorem State.builtFor_of_valid (h : s.invValid = true) : s.builtFor i = s := by
  simp [State.builtFor, State.ensureBuilt_of_valid s h]

/-- The states a command can complete with: nothing written, an error, or one of the three kinds of staged write. -/
inductive CommandWrites : State → Prop where
  | nothing (hd : destReg i = none) : CommandWrites ((s.builtFor i).complete .ok)
  | divByZero (hz : DividesByZero s i) : CommandWrites ((s.builtFor i).complete .divByZero)
  | register {rd : RegIdx} (v : Byte) (hd : destReg i = some rd) (hz : ¬ DividesByZero s i) :
      CommandWrites (((s.builtFor i).writeBack rd v).complete .ok)
  | coef {idx : Byte} (v : Byte) (hd : destReg i = none) (hc : coefStore i = some idx) :
      CommandWrites (((s.builtFor i).setCoef idx v).complete .ok)
  | point {idx : Byte} (vx vy : Byte) (hd : destReg i = none) (hp : pointStore i = some idx) :
      CommandWrites (((s.builtFor i).setPoint idx vx vy).complete .ok)

/-- Every command answers the completion of what it writes. -/
theorem exec_writes : ∃ t, exec i s = .next t ∧ CommandWrites s i t := by
  cases i with
  | nop | invb => exact ⟨_, rfl, .nothing rfl⟩
  | pcset | pcst => exact ⟨_, rfl, .coef _ rfl rfl⟩
  | lpset | lpst => exact ⟨_, rfl, .point _ _ rfl rfl⟩
  | gdiv rd rs1 rs2 =>
    by_cases hz : s.reg rs2 = 0#8
    · exact ⟨_, exec_gdiv_zero s rd rs1 rs2 hz, .divByZero hz⟩
    · exact ⟨_, exec_gdiv s rd rs1 rs2 hz, .register _ rfl hz⟩
  | ginv rd rs1 =>
    by_cases hz : s.reg rs1 = 0#8
    · exact ⟨_, exec_ginv_zero s rd rs1 hz, .divByZero hz⟩
    · exact ⟨_, exec_ginv s rd rs1 hz, .register _ rfl hz⟩
  | lagr rd n =>
    have hdup : DividesByZero s (.lagr rd n) ↔ hasDuplicate s.px n.toNat = true := (hasDuplicate_iff s.px n.toNat).symm
    cases hz : hasDuplicate s.px n.toNat with
    | true => exact ⟨_, exec_lagr_duplicate s rd n hz, .divByZero (hdup.2 hz)⟩
    | false => exact ⟨_, exec_lagr s rd n hz, .register _ rfl (by simp [hdup, hz])⟩
  | _ => exact ⟨_, rfl, .register _ rfl id⟩

/-- The inversion of `exec`: whatever it answers is the completion of what the command writes. -/
theorem commandWrites_of_exec {s t : State} {i : Instr} (h : exec i s = .next t) : CommandWrites s i t := by
  obtain ⟨u, hu, hw⟩ := exec_writes s i
  cases hu.symm.trans h
  exact hw

end Writes

section Frame
variable {s t : State} {i : Instr}

/-- The table and INV_VALID a command leaves are those it has after its build. -/
theorem CommandWrites.table (h : CommandWrites s i t) : t.inv = (s.builtFor i).inv ∧ t.invValid = (s.builtFor i).invValid := by
  cases h <;> exact ⟨rfl, rfl⟩

theorem CommandWrites.table_of_not_needsTable (h : CommandWrites s i t) (hn : needsTable i.opcode = false) :
    t.inv = s.inv ∧ t.invValid = s.invValid := by
  simpa only [s.builtFor_of_not_needsTable i hn] using h.table

theorem CommandWrites.table_of_valid (h : CommandWrites s i t) (hv : s.invValid = true) : t.inv = s.inv ∧ t.invValid = true := by
  simpa only [s.builtFor_of_valid i hv, hv] using h.table

/-- No register but the destination changes. -/
theorem CommandWrites.reg_other (h : CommandWrites s i t) {r : RegIdx} (hr : destReg i ≠ some r) : t.reg r = s.reg r := by
  cases h with
  | register v hd =>
    have hne : r ≠ _ := fun e => hr (e ▸ hd)
    simp [State.reg_writeBack_other _ _ _ _ hne]
  | _ => exact State.builtFor_reg s i r

theorem CommandWrites.coef_other (h : CommandWrites s i t) (hwf : s.coef.wf = true) {a : Nat}
    (ha : ∀ idx, coefStore i = some idx → a ≠ idx.toNat) : t.coef.read a = s.coef.read a := by
  cases h with
  | coef v _ hc => simp [Memory.read_write _ _ _ hwf, ha _ hc]
  | _ => simp

theorem CommandWrites.point_other (h : CommandWrites s i t) (hx : s.px.wf = true) (hy : s.py.wf = true) {a : Nat}
    (ha : ∀ idx, pointStore i = some idx → a ≠ idx.toNat) : t.px.read a = s.px.read a ∧ t.py.read a = s.py.read a := by
  cases h with
  | point vx vy _ hp => simp [Memory.read_write _ _ _ hx, Memory.read_write _ _ _ hy, ha _ hp]
  | _ => simp

theorem CommandWrites.result_of_no_dest (h : CommandWrites s i t) (hd : destReg i = none) : t.result = s.result := by
  cases h with
  | register v hd' => simp [hd] at hd'
  | _ => simp

/-- Only an error sets STICKY_ERR (10_state.md R27). -/
theorem CommandWrites.sticky_of_ok (h : CommandWrites s i t) (hok : t.lastErr = 0#4) : t.stickyErr = s.stickyErr := by
  cases h with
  | divByZero => exact absurd hok (show (0x1#4 : BitVec 4) ≠ 0#4 by decide)
  | _ => simp [stickyAfter]

/-- A command that completes with an error has written nothing but the error fields (60_exceptions.md R305). -/
theorem CommandWrites.of_error (h : CommandWrites s i t) (herr : t.lastErr ≠ 0#4) :
    t.stickyErr = true ∧ t.x = s.x ∧ t.result = s.result ∧ t.coef = s.coef ∧ t.px = s.px ∧ t.py = s.py := by
  cases h with
  | divByZero => simp [stickyAfter]
  | _ => exact absurd rfl herr

theorem CommandWrites.port (h : CommandWrites s i t) :
    t.busy = false ∧ t.held = s.held ∧ t.inputs = s.inputs ∧ t.replies = s.replies := by
  cases h <;> simp

end Frame

/-- Settles O41: the frame of what a command can write, part by part. -/
theorem commandsChangeNothingElse : Obligations.CommandsChangeNothingElse := by
  intro i s t ⟨hcoef, hpx, hpy, _⟩ he
  have h := commandWrites_of_exec he
  exact ⟨fun _ => h.reg_other, fun _ => h.coef_other hcoef, fun _ => h.point_other hpx hpy, h.table_of_not_needsTable,
    h.table_of_valid, h.result_of_no_dest, fun herr => (h.of_error herr).2, h.sticky_of_ok,
    fun herr => (h.of_error herr).1, h.port⟩

/-! ### The invariant -/

section Invariant
variable {s t : State}

/-- A byte extended to 32 bits has bits 31:8 zero (10_state.md R24). -/
theorem extractLsb'_setWidth_byte (v : Byte) : (v.setWidth 32).extractLsb' 8 24 = 0#24 := by
  ext k hk
  simp

theorem State.Sound.withInputs (h : s.Sound) (rest : List Input) : { s with inputs := rest }.Sound := { h with }

theorem State.Sound.withHeld (h : s.Sound) {o : Option HostAccess} (ho : ∀ a, o = some a → a.heldByBusy = true) :
    { s with held := o }.Sound := { h with held := ho }

/-! #### What commands are made of -/

theorem State.MemoriesCanonical.built (h : s.MemoriesCanonical) : s.build.MemoriesCanonical := by
  obtain ⟨hcoef, hpx, hpy, _⟩ := h
  exact ⟨hcoef, hpx, hpy, builtTable_wf⟩

theorem State.Sound.built (h : s.Sound) : s.build.Sound where
  memories := h.memories.built
  table := s.tableSound_build
  resultHigh := h.resultHigh
  errors := h.errors
  build := by
    intro c hc hb
    obtain ⟨d, _, rfl⟩ := Option.map_eq_some_iff.1 hc
    cases hb
  held := h.held

theorem State.Sound.builtFor (h : s.Sound) (i : Instr) : (s.builtFor i).Sound := by
  unfold State.builtFor State.ensureBuilt
  split
  · split
    · exact h
    · exact h.built
  · exact h

theorem State.Sound.writeBack (h : s.Sound) (rd : RegIdx) (v : Byte) : (s.writeBack rd v).Sound :=
  { h with resultHigh := extractLsb'_setWidth_byte v }

theorem State.Sound.setCoef (h : s.Sound) (idx v : Byte) : (s.setCoef idx v).Sound := by
  obtain ⟨hcoef, hrest⟩ := h.memories
  exact { h with memories := ⟨Memory.wf_write v hcoef idx.isLt, hrest⟩ }

theorem State.Sound.setPoint (h : s.Sound) (idx vx vy : Byte) : (s.setPoint idx vx vy).Sound := by
  obtain ⟨hcoef, hpx, hpy, hinv⟩ := h.memories
  exact { h with memories := ⟨hcoef, Memory.wf_write vx hpx idx.isLt, Memory.wf_write vy hpy idx.isLt, hinv⟩ }

theorem State.Sound.complete (h : s.Sound) (e : ErrorCode) : (s.complete e).Sound :=
  { h with
    errors := by cases e <;> simp [State.ErrorsSound, ErrorCode.code, stickyAfter]
    build := fun _ hc => nomatch hc }

theorem CommandWrites.sound {i : Instr} (hw : CommandWrites s i t) (h : s.Sound) : t.Sound := by
  have hb := h.builtFor i
  cases hw with
  | nothing => exact hb.complete .ok
  | divByZero => exact hb.complete .divByZero
  | register v => exact (hb.writeBack _ v).complete .ok
  | coef v => exact (hb.setCoef _ v).complete .ok
  | point vx vy => exact (hb.setPoint _ vx vy).complete .ok

theorem runCommand_sound (h : s.Sound) (hr : runCommand s = .next t) : t.Sound := by
  cases ha : s.active with
  | none =>
    rw [runCommand_idle s ha] at hr
    cases hr
    exact h
  | some c =>
    cases hd : decode c.word with
    | illegal r =>
      rw [runCommand_illegal s ha hd] at hr
      cases hr
      exact h.complete .illegalCmd
    | command i =>
      rw [runCommand_command s ha hd] at hr
      exact (commandWrites_of_exec hr).sound h

/-! #### The build -/

theorem State.Sound.startBuild (h : s.Sound) : s.startBuild.Sound := by
  cases ha : s.active with
  | none => rw [startBuild_idle s ha]; exact h
  | some c =>
    rw [startBuild_busy s ha]
    split
    · rename_i hc
      simp only [Bool.and_eq_true, Bool.not_eq_true'] at hc
      exact { h with build := by rintro _ ⟨⟩ _; exact hc.symm }
    · exact h

theorem State.Sound.endBuild (h : s.Sound) : s.endBuild.Sound := by
  unfold State.endBuild
  split
  · exact h.built
  · exact h

/-! #### Resets and the port -/

theorem sound_reset : State.reset.Sound where
  memories := ⟨rfl, rfl, rfl, rfl⟩
  table := fun h => nomatch h
  resultHigh := rfl
  errors := ⟨by decide, fun h => absurd rfl h⟩
  build := fun _ h => nomatch h
  held := fun _ h => nomatch h

theorem State.sound_powerOn (s : State) : s.powerOn.Sound := { sound_reset with }

theorem State.Sound.softReset (h : s.Sound) : s.softReset.Sound := { sound_reset with held := h.held }

theorem State.Sound.clearErrors (h : s.Sound) : s.clearErrors.Sound := { h with errors := sound_reset.errors }

theorem State.Sound.accept (h : s.Sound) (w : Word) : (s.accept w).Sound := 
  { h with build := fun _ hc hb => by cases hc; cases hb }

theorem State.Sound.answer (h : s.Sound) (r : Reply) : (s.answer r).Sound := { h with }

theorem State.Sound.perform (h : s.Sound) (a : HostAccess) : (s.perform a).Sound := by
  obtain ⟨r, hp | ⟨w, _, _, hp⟩ | hp | hp⟩ := perform_cases s a <;> rw [hp]
  · exact h.answer r
  · exact (h.accept w).answer r
  · exact h.softReset.answer r
  · exact h.clearErrors.answer r

end Invariant

/-- Settles O59: each case of a step is one of the operations that keep the invariant. -/
theorem stepKeepsSound : Obligations.StepKeepsSound := by
  intro s t h hstep
  obtain ⟨a, _, _, rfl⟩ | ⟨_, ⟨rest, _, hr⟩ | ⟨rest, _, rfl⟩ | ⟨rest, _, rfl⟩ | ⟨rest, _, rfl⟩ |
    ⟨a, rest, _, ha, _, _, rfl⟩ | ⟨a, rest, _, _, rfl⟩⟩ := step_cases s hstep
  · exact (h.withHeld (o := none) fun _ ho => nomatch ho).perform a
  · exact runCommand_sound (h.withInputs rest) hr
  · exact (h.withInputs rest).startBuild
  · exact (h.withInputs rest).endBuild
  · exact State.sound_powerOn _
  · exact (h.withInputs rest).withHeld (by rintro _ ⟨⟩; exact ha)
  · exact (h.withInputs rest).perform a

/-! ### The table before it is built -/

/-- `s` with another content of the inverse table. -/
def State.withTable (s : State) (m : Memory) : State := { s with inv := m }

/-- Two states that differ at most in the content of a table not yet built (10_state.md R36). -/
inductive SameButUnbuilt : State → State → Prop where
  | refl (s : State) : SameButUnbuilt s s
  | unbuilt {s : State} (h : s.invValid = false) (m : Memory) : SameButUnbuilt s (s.withTable m)

/-- Two outcomes that are next states differing at most in the content of a table not yet built. -/
def SameNext (o p : Host.Outcome State Fault Refusal) : Prop :=
  ∃ t u, o = .next t ∧ p = .next u ∧ SameButUnbuilt t u

theorem SameButUnbuilt.next {t u : State} (h : SameButUnbuilt t u) : SameNext (.next t) (.next u) := ⟨t, u, rfl, rfl, h⟩

theorem SameButUnbuilt.answer {t u : State} (h : SameButUnbuilt t u) (r : Reply) :
    SameButUnbuilt (t.answer r) (u.answer r) := by
  cases h with
  | refl => exact .refl _
  | unbuilt h m => exact .unbuilt (s := t.answer r) h m

section Unbuilt
variable (s : State) (m : Memory)

@[simp] theorem withTable_invValid : (s.withTable m).invValid = s.invValid := rfl
@[simp] theorem withTable_active : (s.withTable m).active = s.active := rfl
@[simp] theorem withTable_busy : (s.withTable m).busy = s.busy := rfl
@[simp] theorem withTable_held : (s.withTable m).held = s.held := rfl
@[simp] theorem withTable_inputs : (s.withTable m).inputs = s.inputs := rfl

/-- No register of the window shows the table (10_state.md R36). -/
@[simp] theorem readPort_withTable (r : PortReg) : (s.withTable m).readPort r = s.readPort r := by cases r <;> rfl

/-- A command that needs the table looks at it only after the build (41_inverse_cache.md R154). -/
theorem exec_ensureBuilt {i : Instr} (hn : needsTable i.opcode = true) : exec i s.ensureBuilt = exec i s := by
  have hidem : s.ensureBuilt.ensureBuilt = s.ensureBuilt := State.ensureBuilt_of_valid _ (State.ensureBuilt_invValid s)
  cases i with
  | invb => simp only [exec_invb, hidem]
  | gdiv | ginv | lagr => simp only [exec, execGdiv, execGinv, execLagr, hidem]
  | _ => cases hn

/-- A command that does not need the table neither looks at it nor changes it. -/
theorem exec_withTable {i : Instr} (hn : needsTable i.opcode = false) :
    ∃ t, exec i s = .next t ∧ exec i (s.withTable m) = .next (t.withTable m) ∧ t.invValid = s.invValid := by
  cases i with
  | invb | gdiv | ginv | lagr => cases hn
  | _ => exact ⟨_, rfl, rfl, rfl⟩

variable {s}
variable (h : s.invValid = false)
include h

/-- The build overwrites whatever the table held. -/
theorem ensureBuilt_unbuilt : (s.withTable m).ensureBuilt = s.ensureBuilt := by
  rw [State.ensureBuilt_of_not_valid s h, State.ensureBuilt_of_not_valid (s.withTable m) h]
  rfl

theorem exec_unbuilt (i : Instr) : SameNext (exec i s) (exec i (s.withTable m)) := by
  cases hn : needsTable i.opcode with
  | true =>
    obtain ⟨t, ht, _⟩ := exec_writes s i
    have hsame : exec i (s.withTable m) = exec i s := by
      rw [← exec_ensureBuilt _ hn, ensureBuilt_unbuilt m h, exec_ensureBuilt s hn]
    rw [hsame, ht]
    exact (SameButUnbuilt.refl t).next
  | false =>
    obtain ⟨t, ht, ht', hv⟩ := exec_withTable s m hn
    rw [ht, ht']
    exact (SameButUnbuilt.unbuilt (hv.trans h) m).next

theorem runCommand_unbuilt : SameNext (runCommand s) (runCommand (s.withTable m)) := by
  unfold runCommand
  rw [withTable_active]
  split
  · exact (SameButUnbuilt.unbuilt h m).next
  · split
    · exact (SameButUnbuilt.unbuilt (s := s.complete .illegalCmd) h m).next
    · exact exec_unbuilt m h _

theorem startBuild_unbuilt : SameButUnbuilt s.startBuild (s.withTable m).startBuild := by
  unfold State.startBuild
  rw [withTable_active, withTable_invValid]
  split
  · exact .unbuilt h m
  · rename_i c _
    split
    · exact .unbuilt (s := { s with active := some { c with building := true } }) h m
    · exact .unbuilt h m

theorem endBuild_unbuilt : SameButUnbuilt s.endBuild (s.withTable m).endBuild := by
  have hb : (s.withTable m).invBuilding = s.invBuilding := rfl
  unfold State.endBuild
  rw [hb]
  split
  · exact .refl s.build
  · exact .unbuilt h m

theorem advance_unbuilt (p : Progress) : SameNext (advance p s) (advance p (s.withTable m)) := by
  cases p with
  | buildStarts => exact (startBuild_unbuilt m h).next
  | buildEnds => exact (endBuild_unbuilt m h).next
  | completes => exact runCommand_unbuilt m h

theorem writeCtrl_unbuilt (v : Word) : SameButUnbuilt (s.writeCtrl v) ((s.withTable m).writeCtrl v) := by
  unfold State.writeCtrl
  split
  · exact .refl s.softReset
  · split
    · exact .unbuilt (s := s.clearErrors) h m
    · exact .unbuilt h m

theorem writePort_unbuilt (r : PortReg) (v : Word) : SameButUnbuilt (s.writePort r v) ((s.withTable m).writePort r v) := by
  cases r with
  | cmd => exact .unbuilt (s := s.accept v) h m
  | ctrl => exact writeCtrl_unbuilt m h v
  | _ => exact .unbuilt h m

theorem perform_unbuilt (a : HostAccess) : SameButUnbuilt (s.perform a) ((s.withTable m).perform a) := by
  unfold State.perform
  split
  · split
    · rw [readPort_withTable]
      exact (SameButUnbuilt.unbuilt h m).answer _
    · exact (writePort_unbuilt m h _ _).answer _
  · exact (SameButUnbuilt.unbuilt h m).answer _

theorem receive_unbuilt (a : HostAccess) (rest : List Input) :
    SameNext (receive a rest s) (receive a rest (s.withTable m)) := by
  unfold receive
  rw [withTable_busy, withTable_held]
  split
  · split
    · exact runCommand_unbuilt m h
    · exact (SameButUnbuilt.unbuilt (s := { s with held := some a, inputs := rest }) h m).next
  · exact (perform_unbuilt (s := { s with inputs := rest }) m h a).next

theorem step_unbuilt : SameNext (step s) (step (s.withTable m)) := by
  by_cases hc : s.busy = true ∨ s.held = none
  · rw [step_inputs s hc, step_inputs (s.withTable m) hc, withTable_inputs]
    split
    · exact runCommand_unbuilt m h
    · rename_i p rest _
      exact advance_unbuilt (s := { s with inputs := rest }) m h p
    · exact (SameButUnbuilt.refl _).next
    · exact receive_unbuilt m h _ _
  · obtain ⟨hb, hh⟩ := not_or.1 hc
    obtain ⟨a, ha⟩ := Option.ne_none_iff_exists'.1 hh
    have hidle : s.busy = false := Bool.eq_false_iff.2 hb
    rw [step_held s ha hidle, step_held (s.withTable m) ha hidle]
    exact (perform_unbuilt (s := { s with held := none }) m h a).next

end Unbuilt

/-- Settles O12: every event of the block treats two contents of an unbuilt table alike. -/
theorem unbuiltTableIsUnobservable : Obligations.UnbuiltTableIsUnobservable := by
  intro s m h
  obtain ⟨t, u, ht, hu, hsame⟩ := step_unbuilt m h
  cases hsame with
  | refl => exact ⟨t, t.inv, ht, hu, fun _ => rfl⟩
  | unbuilt hv m' => exact ⟨t, m', ht, hu, fun hv' => absurd (hv.symm.trans hv') (by decide)⟩

end Sys2Proof.Machine
end

section
/-! PROOF. The statements of 20_memory.md: what the port answers to each access, which accesses a step performs, and command words
written back to back. -/

namespace Sys2Proof.Machine

/-! ### Legal and illegal accesses -/

section Port
variable (s : State)

/-- An access is legal exactly if it is 4 bytes wide at a multiple of 4 (20_memory.md R52, R53). -/
theorem HostAccess.legal_iff (a : HostAccess) : a.legal = true ↔ a.width = .word ∧ a.offset.toNat % 4 = 0 := by
  unfold HostAccess.legal
  split <;> simp [*]

theorem HostAccess.legal_eq_false {a : HostAccess} (h : a.width ≠ .word ∨ a.offset.toNat % 4 ≠ 0) : a.legal = false := by
  rw [Bool.eq_false_iff, ne_eq, HostAccess.legal_iff, not_and_or]
  exact h

/-- BUSY holds legal accesses only. -/
theorem HostAccess.heldByBusy_of_illegal {a : HostAccess} (h : a.legal = false) : a.heldByBusy = false := by
  simp [HostAccess.heldByBusy, h]

theorem perform_read {a : HostAccess} (hl : a.legal = true) (ho : a.op = .read) :
    s.perform a = s.answer (.data (s.readPort (portRegAt a.offset))) := by simp [State.perform, hl, ho]

theorem perform_write {a : HostAccess} {v : Word} (hl : a.legal = true) (ho : a.op = .write v) :
    s.perform a = (s.writePort (portRegAt a.offset) v).answer .written := by simp [State.perform, hl, ho]

/-- What a read of the register at each offset returns (20_memory.md R51). -/
theorem readPort_portRegAt (off : Byte) : s.readPort (portRegAt off) =
    if off = 0x00#8 then Config.idWord else if off = 0x04#8 then Config.paramWord else if off = 0x08#8 then 0#32
    else if off = 0x0C#8 then s.status else if off = 0x10#8 then s.result else 0#32 := by
  unfold portRegAt
  split_ifs <;> rfl

/-- CMD and CTRL are the only registers a write changes anything through (20_memory.md R51, R55). -/
theorem writePort_portRegAt_ignored {off : Byte} (v : Word) (hcmd : off ≠ 0x08#8) (hctrl : off ≠ 0x14#8) :
    s.writePort (portRegAt off) v = s := by
  unfold portRegAt
  split_ifs <;> rfl

/-! ### The steps of the port and of an idle block -/

variable {s} {a : HostAccess} {rest : List Input}

/-- A step performs the next access where neither BUSY nor an access held before it keeps it back (20_memory.md R59). -/
theorem step_perform (h : (s.busy = true ∧ a.heldByBusy = false) ∨ (s.busy = false ∧ s.held = none))
    (hi : s.inputs = .access a :: rest) : step s = .next ({ s with inputs := rest }.perform a) := by
  obtain ⟨hb, ha⟩ | ⟨hb, hh⟩ := h
  · rw [step_inputs s (.inl hb), hi]
    simp [receive, ha]
  · rw [step_inputs s (.inr hh), hi]
    simp [receive, hb]

/-- An access that BUSY never holds is performed whenever the next input decides the step. -/
theorem step_perform_of_not_heldByBusy (ha : a.heldByBusy = false) (hc : s.busy = true ∨ s.held = none)
    (hi : s.inputs = .access a :: rest) : step s = .next ({ s with inputs := rest }.perform a) := by
  cases hb : s.busy with
  | true => exact step_perform (.inl ⟨hb, ha⟩) hi
  | false => exact step_perform (.inr ⟨hb, hc.resolve_left (by simp [hb])⟩) hi

/-- While BUSY = 1 a CMD write or a RESULT read is held (70_reset_and_hazards.md R405, R406). -/
theorem step_hold (hb : s.busy = true) (hh : s.held = none) (ha : a.heldByBusy = true) (hi : s.inputs = .access a :: rest) :
    step s = .next { s with held := some a, inputs := rest } := by
  rw [step_inputs s (.inl hb), hi]
  simp [receive, ha, hb, hh]

/-- An access that finds another one held waits while the command in progress completes (70_reset_and_hazards.md R408). -/
theorem step_wait (hb : s.busy = true) (hh : s.held.isSome = true) (ha : a.heldByBusy = true)
    (hi : s.inputs = .access a :: rest) : step s = runCommand s := by
  rw [step_inputs s (.inl hb), hi]
  simp [receive, ha, hb, hh]

/-- With nothing left to happen, the command in progress completes (70_reset_and_hazards.md R408). -/
theorem step_no_inputs (hc : s.busy = true ∨ s.held = none) (hi : s.inputs = []) : step s = runCommand s := by
  rw [step_inputs s hc, hi]

/-- An instant of a command changes nothing in an idle block. -/
theorem advance_idle (p : Progress) (h : s.active = none) : advance p s = .next s := by
  cases p with
  | buildStarts => exact congrArg _ (startBuild_idle s h)
  | buildEnds => exact congrArg _ (endBuild_idle s h)
  | completes => exact runCommand_idle s h

end Port

/-- Settles O46: an illegal access is never held, so the step performs it, and performing it only answers. -/
theorem illegalAccessesGetABusError : Obligations.IllegalAccessesGetABusError := by
  intro s a rest ha hc hi
  have hl : a.legal = false := HostAccess.legal_eq_false ha
  rw [step_perform_of_not_heldByBusy (HostAccess.heldByBusy_of_illegal hl) hc hi, perform_illegal _ hl]
  rfl

/-- Settles O47: the register map for reads and ignored writes, then the steps of the port and of an idle block. -/
theorem windowReadsAndIgnoredWrites : Obligations.WindowReadsAndIgnoredWrites := by
  refine ⟨fun s off hoff => ⟨?_, fun v hcmd hctrl => ?_⟩, fun s a rest => step_perform,
    fun s hb hh => ⟨fun hi => ?_, fun p rest hi => ?_⟩⟩
  · rw [perform_read s ((HostAccess.legal_iff _).2 ⟨rfl, hoff⟩) rfl, readPort_portRegAt]
    rfl
  · rw [perform_write s ((HostAccess.legal_iff _).2 ⟨rfl, hoff⟩) rfl, writePort_portRegAt_ignored s v hcmd hctrl]
    rfl
  · rw [step_no_inputs (.inr hh) hi]
    exact runCommand_idle s ((State.busy_eq_false_iff s).1 hb)
  · rw [step_inputs s (.inr hh), hi]
    exact advance_idle (s := { s with inputs := rest }) p ((State.busy_eq_false_iff s).1 hb)

/-! ### A command and the port's side of the block -/

/-- `s` with another access held, other inputs and other answers: the fields no command looks at (20_memory.md R58). -/
def State.withPort (s : State) (held : Option HostAccess) (inputs : List Input) (replies : List Reply) : State :=
  { s with held := held, inputs := inputs, replies := replies }

section WithPort
variable (s : State) (o : Option HostAccess) (is : List Input) (rs : List Reply)

@[simp] theorem withPort_px : (s.withPort o is rs).px = s.px := rfl
@[simp] theorem withPort_py : (s.withPort o is rs).py = s.py := rfl
@[simp] theorem withPort_inv : (s.withPort o is rs).inv = s.inv := rfl
@[simp] theorem withPort_invValid : (s.withPort o is rs).invValid = s.invValid := rfl
@[simp] theorem withPort_reg (r : RegIdx) : (s.withPort o is rs).reg r = s.reg r := rfl
@[simp] theorem withPort_inverse (a : Byte) : (s.withPort o is rs).inverse a = s.inverse a := rfl
@[simp] theorem build_withPort : (s.withPort o is rs).build = s.build.withPort o is rs := rfl
@[simp] theorem writeBack_withPort (rd : RegIdx) (v : Byte) :
    (s.withPort o is rs).writeBack rd v = (s.writeBack rd v).withPort o is rs := rfl
@[simp] theorem complete_withPort (e : ErrorCode) :
    (s.withPort o is rs).complete e = (s.complete e).withPort o is rs := rfl

@[simp] theorem ensureBuilt_withPort : (s.withPort o is rs).ensureBuilt = s.ensureBuilt.withPort o is rs := by
  cases hv : s.invValid with
  | true => simp [State.ensureBuilt_of_valid, hv]
  | false => simp [State.ensureBuilt_of_not_valid, hv]

/-- A command neither looks at the port's side of the block nor changes it. -/
theorem exec_withPort (i : Instr) :
    ∃ t, exec i s = .next t ∧ exec i (s.withPort o is rs) = .next (t.withPort o is rs) := by
  cases i with
  | invb => exact ⟨_, exec_invb s, by simp [exec_invb]⟩
  | gdiv rd rs1 rs2 =>
    by_cases hz : s.reg rs2 = 0#8
    · exact ⟨_, exec_gdiv_zero s rd rs1 rs2 hz, by simp [exec_gdiv_zero, hz]⟩
    · exact ⟨_, exec_gdiv s rd rs1 rs2 hz, by simp [exec_gdiv (s.withPort o is rs) rd rs1 rs2 hz]⟩
  | ginv rd rs1 =>
    by_cases hz : s.reg rs1 = 0#8
    · exact ⟨_, exec_ginv_zero s rd rs1 hz, by simp [exec_ginv_zero, hz]⟩
    · exact ⟨_, exec_ginv s rd rs1 hz, by simp [exec_ginv (s.withPort o is rs) rd rs1 hz]⟩
  | lagr rd n =>
    cases hz : hasDuplicate s.px n.toNat with
    | true => exact ⟨_, exec_lagr_duplicate s rd n hz, by simp [exec_lagr_duplicate, hz]⟩
    | false => exact ⟨_, exec_lagr s rd n hz, by simp [exec_lagr, hz]⟩
  | _ => exact ⟨_, rfl, rfl⟩

theorem runCommand_withPort {t : State} (hr : runCommand s = .next t) :
    runCommand (s.withPort o is rs) = .next (t.withPort o is rs) := by
  cases ha : s.active with
  | none =>
    cases (runCommand_idle s ha).symm.trans hr
    exact runCommand_idle _ ha
  | some c =>
    cases hd : decode c.word with
    | illegal r =>
      cases (runCommand_illegal s ha hd).symm.trans hr
      exact runCommand_illegal _ ha hd
    | command i =>
      obtain ⟨u, hu, hup⟩ := exec_withPort s o is rs i
      cases hu.symm.trans ((runCommand_command s ha hd).symm.trans hr)
      exact (runCommand_command (s.withPort o is rs) ha hd).trans hup

end WithPort

/-! ### Commands one after the other -/

section Commands
variable (s : State) (w : Word) (ws : List Word)

/-- An accepted word runs to the state `afterCommand` names. -/
theorem runCommand_accept : runCommand (s.accept w) = .next (afterCommand s w) := by
  obtain ⟨t, ht, _⟩ := runCommand_next (s.accept w)
  simp [afterCommand, ht]

/-- After a command the block is idle, and the port's side is what it was. -/
theorem afterCommand_port : (afterCommand s w).active = none ∧ (afterCommand s w).held = s.held ∧
    (afterCommand s w).inputs = s.inputs ∧ (afterCommand s w).replies = s.replies := by
  obtain ⟨t, ht, hport⟩ := runCommand_next (s.accept w)
  cases (runCommand_accept s w).symm.trans ht
  exact hport

theorem afterCommands_port : (afterCommands s ws).held = s.held ∧ (afterCommands s ws).inputs = s.inputs := by
  induction ws generalizing s with
  | nil => exact ⟨rfl, rfl⟩
  | cons w ws ih =>
    obtain ⟨_, hheld, hinputs, _⟩ := afterCommand_port s w
    obtain ⟨ihheld, ihinputs⟩ := ih (afterCommand s w)
    exact ⟨ihheld.trans hheld, ihinputs.trans hinputs⟩

theorem runCommand_accept_withPort (h : Option HostAccess) (is : List Input) (rs : List Reply) :
    runCommand ((s.accept w).withPort h is rs) = .next ((afterCommand s w).withPort h is rs) :=
  runCommand_withPort _ h is rs (runCommand_accept s w)

end Commands

/-- `u` is reached from `s` in some number of steps. -/
def RunsTo (s u : State) : Prop := ∃ k, Host.Core.run Sys2Proof.core k s = .next u

theorem RunsTo.refl (s : State) : RunsTo s s := ⟨0, rfl⟩

/-- A run that begins with a step is that step and the run after it. -/
theorem run_succ_of_step {s t : State} (h : step s = .next t) (k : Nat) :
    Host.Core.run Sys2Proof.core (k + 1) s = Host.Core.run Sys2Proof.core k t := by
  have hcore : Sys2Proof.core.step s = .next t := h
  simp only [Host.Core.run, hcore]

theorem RunsTo.head {s t u : State} (h : step s = .next t) (hu : RunsTo t u) : RunsTo s u := by
  obtain ⟨k, hk⟩ := hu
  exact ⟨k + 1, (run_succ_of_step h k).trans hk⟩

/-- The CMD writes of a list of command words, as inputs of the block. -/
def cmdWrites (ws : List Word) : List Input := ws.map fun w => .access (cmdWrite w)

/-- With one CMD write held and only CMD writes to come, the next step completes the command in progress: nothing is left to
happen, or a second write waits. -/
theorem step_cmdWrites_wait {s : State} {ws : List Word} (hb : s.busy = true) (hh : s.held.isSome = true)
    (hi : s.inputs = cmdWrites ws) : step s = runCommand s := by
  cases ws with
  | nil => exact step_no_inputs (.inl hb) hi
  | cons w ws => exact step_wait hb hh (cmdWrite_heldByBusy w) hi

/-- An idle block that holds a CMD write accepts its word (20_memory.md R59). -/
theorem step_withPort_held {s : State} (hb : s.busy = false) (w : Word) (is : List Input) (rs : List Reply) :
    step (s.withPort (some (cmdWrite w)) is rs) = .next ((s.accept w).withPort none is (rs ++ [.written])) := by
  rw [step_held (s.withPort (some (cmdWrite w)) is rs) rfl hb, perform_cmdWrite]
  rfl

/-- An idle block that holds nothing accepts the next word written to CMD (20_memory.md R58). -/
theorem step_withPort_cmdWrites {s : State} (hb : s.busy = false) (w : Word) (ws : List Word) (rs : List Reply) :
    step (s.withPort none (cmdWrites (w :: ws)) rs) = .next ((s.accept w).withPort none (cmdWrites ws) (rs ++ [.written])) := by
  rw [step_perform (s := s.withPort none (cmdWrites (w :: ws)) rs) (.inr ⟨hb, rfl⟩) rfl, perform_cmdWrite]
  rfl

/-- A word just accepted and the words written after it run one after the other. Each later word takes three steps: its write is
held (R405), the word before it completes (R408), and the held write is performed (20_memory.md R59). -/
theorem runsTo_afterCommands_of_accept (s : State) (w : Word) (ws : List Word) (rs : List Reply) :
    RunsTo ((s.accept w).withPort none (cmdWrites ws) rs)
      ((afterCommands s (w :: ws)).withPort none [] (rs ++ List.replicate ws.length .written)) := by
  induction ws generalizing s w rs with
  | nil =>
    rw [List.length_nil, List.replicate_zero, List.append_nil]
    have hdone := (step_no_inputs (.inl rfl) rfl).trans (runCommand_accept_withPort s w none [] rs)
    exact .head hdone (.refl _)
  | cons v ws ih =>
    have hhold : step ((s.accept w).withPort none (cmdWrites (v :: ws)) rs) =
        .next ((s.accept w).withPort (some (cmdWrite v)) (cmdWrites ws) rs) :=
      step_hold rfl rfl (cmdWrite_heldByBusy v) rfl
    have hdone : step ((s.accept w).withPort (some (cmdWrite v)) (cmdWrites ws) rs) =
        .next ((afterCommand s w).withPort (some (cmdWrite v)) (cmdWrites ws) rs) :=
      (step_cmdWrites_wait rfl rfl rfl).trans (runCommand_accept_withPort s w _ _ rs)
    have hidle : (afterCommand s w).busy = false := (State.busy_eq_false_iff _).2 (afterCommand_port s w).1
    have haccept := step_withPort_held hidle v (cmdWrites ws) rs
    rw [List.length_cons, List.replicate_succ, List.append_cons]
    exact .head hhold (.head hdone (.head haccept (ih (afterCommand s w) v (rs ++ [.written]))))

/-- The words written to an idle block run one after the other. -/
theorem runsTo_afterCommands {s : State} (hb : s.busy = false) (ws : List Word) (rs : List Reply) :
    RunsTo (s.withPort none (cmdWrites ws) rs)
      ((afterCommands s ws).withPort none [] (rs ++ List.replicate ws.length .written)) := by
  cases ws with
  | nil =>
    rw [List.length_nil, List.replicate_zero, List.append_nil]
    exact .refl _
  | cons w ws =>
    rw [List.length_cons, List.replicate_succ, List.append_cons]
    exact .head (step_withPort_cmdWrites hb w ws rs) (runsTo_afterCommands_of_accept s w ws (rs ++ [.written]))

/-- Settles O57: the port's side of the block is set apart, and the words run by `runsTo_afterCommands`. -/
theorem commandsRunOneAtATimeInOrder : Obligations.CommandsRunOneAtATimeInOrder := by
  intro s ws hb hh hi
  obtain ⟨hheld, hinputs⟩ := afterCommands_port s ws
  have hstart : s.presentCommands ws = s.withPort none (cmdWrites ws) s.replies := by
    simp [State.presentCommands, State.withPort, cmdWrites, hh, hi]
  have hend (rs : List Reply) : { afterCommands s ws with replies := rs } = (afterCommands s ws).withPort none [] rs := by
    rw [State.withPort, ← hh, ← hi, ← hheld, ← hinputs]
  rw [hstart, hend]
  exact runsTo_afterCommands hb ws s.replies

end Sys2Proof.Machine
end

section
/-! PROOF. The statements of 30_encoding.md: each word has one meaning, the illegal words, what the assembler makes, and the place of
the build in a command's execution. -/

namespace Sys2Proof

/-! ### Every command fits its fields (30_encoding.md R73) -/

@[simp] theorem regInRange_val (r : RegIdx) : regInRange r.val = true := decide_eq_true r.isLt
@[simp] theorem byteInRange_toNat (b : Byte) : byteInRange b.toNat = true := decide_eq_true b.isLt

theorem wellFormed_instr (i : Instr) : i.wellFormed = true := by cases i <;> simp [Instr.wellFormed]

/-! ### A word is its masked bits and its operands (30_encoding.md R71, R72) -/

/-- The words `v` and `w` have the same bits wherever `m` is 1. -/
def AgreeOn (m v w : Word) : Prop := v &&& m = w &&& m

/-- The mask of the `len` bits from bit `k` on, the place of a field (30_encoding.md R71). -/
def fieldMask (k len : Nat) : Word := (BitVec.allOnes len).setWidth 32 <<< k

section Agree
variable {m n v w : Word}

theorem AgreeOn.or (h : AgreeOn m v w) (h' : AgreeOn n v w) : AgreeOn (m ||| n) v w := by
  unfold AgreeOn at *
  rw [BitVec.and_or_distrib_left, BitVec.and_or_distrib_left, h, h']

/-- Words that agree on every bit are equal. -/
theorem AgreeOn.eq (h : AgreeOn m v w) (hm : m = BitVec.allOnes 32) : v = w := by
  subst hm
  simpa only [AgreeOn, BitVec.and_allOnes] using h

/-- Words with the same field agree on its bits. -/
theorem agreeOn_fieldMask {k len : Nat} (h : v.extractLsb' k len = w.extractLsb' k len) : AgreeOn (fieldMask k len) v w := by
  apply BitVec.eq_of_getLsbD_eq
  intro i hi
  rw [BitVec.getLsbD_and, BitVec.getLsbD_and]
  by_cases hfield : k ≤ i ∧ i - k < len
  · obtain ⟨hk, hlen⟩ := hfield
    have hbit := congrArg (fun u => u.getLsbD (i - k)) h
    simp only [BitVec.getLsbD_extractLsb', hlen, Nat.add_sub_cancel' hk, decide_true, Bool.true_and] at hbit
    rw [hbit]
  · have hzero : (fieldMask k len).getLsbD i = false := by
      simp only [fieldMask, BitVec.getLsbD_shiftLeft, BitVec.getLsbD_setWidth, BitVec.getLsbD_allOnes]
      grind
    rw [hzero, Bool.and_false, Bool.and_false]

theorem agreeOn_rd (h : fieldRd v = fieldRd w) : AgreeOn (fieldMask 20 4) v w := agreeOn_fieldMask (BitVec.toFin_inj.1 h)
theorem agreeOn_rs1 (h : fieldRs1 v = fieldRs1 w) : AgreeOn (fieldMask 16 4) v w := agreeOn_fieldMask (BitVec.toFin_inj.1 h)
theorem agreeOn_rs2 (h : fieldRs2 v = fieldRs2 w) : AgreeOn (fieldMask 12 4) v w := agreeOn_fieldMask (BitVec.toFin_inj.1 h)
theorem agreeOn_itop (h : fieldItop v = fieldItop w) : AgreeOn (fieldMask 16 8) v w := agreeOn_fieldMask h
theorem agreeOn_ihi (h : fieldIhi v = fieldIhi w) : AgreeOn (fieldMask 8 8) v w := agreeOn_fieldMask h
theorem agreeOn_imm (h : fieldImm v = fieldImm w) : AgreeOn (fieldMask 0 8) v w := agreeOn_fieldMask h

/-- Every bit of a word is under its row's mask or in one of its row's operands. -/
theorem eq_of_mask_of_operands (o : Opcode) (hm : AgreeOn o.mask v w) (ho : o.operands v = o.operands w) : v = w := by
  cases o with
  | nop | invb => exact hm.eq rfl
  | gadd | gsub | gmul | gdiv =>
    injection ho with hrd hrs1 hrs2
    exact (((hm.or (agreeOn_rd hrd)).or (agreeOn_rs1 hrs1)).or (agreeOn_rs2 hrs2)).eq rfl
  | ginv =>
    injection ho with hrd hrs1
    exact ((hm.or (agreeOn_rd hrd)).or (agreeOn_rs1 hrs1)).eq rfl
  | gaddi | gmuli | peval =>
    injection ho with hrd hrs1 himm
    exact (((hm.or (agreeOn_rd hrd)).or (agreeOn_rs1 hrs1)).or (agreeOn_imm himm)).eq rfl
  | gli | pcld | lpldx | lpldy | lagr =>
    injection ho with hrd himm
    exact ((hm.or (agreeOn_rd hrd)).or (agreeOn_imm himm)).eq rfl
  | pcset =>
    injection ho with himm hitop
    exact ((hm.or (agreeOn_imm himm)).or (agreeOn_itop hitop)).eq rfl
  | pcst =>
    injection ho with himm hrs1
    exact ((hm.or (agreeOn_imm himm)).or (agreeOn_rs1 hrs1)).eq rfl
  | pevali =>
    injection ho with hrd hihi himm
    exact (((hm.or (agreeOn_rd hrd)).or (agreeOn_ihi hihi)).or (agreeOn_imm himm)).eq rfl
  | lpset =>
    injection ho with himm hitop hihi
    exact (((hm.or (agreeOn_imm himm)).or (agreeOn_itop hitop)).or (agreeOn_ihi hihi)).eq rfl
  | lpst =>
    injection ho with himm hrs1 hrs2
    exact (((hm.or (agreeOn_imm himm)).or (agreeOn_rs1 hrs1)).or (agreeOn_rs2 hrs2)).eq rfl

end Agree

/-- A legal word is the encoding of the command it decodes to: the two agree on the row's mask and have the same operands. -/
theorem encode_of_decode {w : Word} {i : Instr} (h : decode w = .command i) : encode i = w := by
  obtain ⟨o, _, hmask, rfl⟩ := decode_eq_command h
  have hmask' : encode (o.operands w) &&& o.mask = o.pattern := by simpa using encode_and_mask (o.operands w)
  have hops : o.operands (encode (o.operands w)) = o.operands w := by simpa using operands_encode (o.operands w)
  exact eq_of_mask_of_operands o (hmask'.trans hmask.symm) hops

/-! ### Illegal words (30_encoding.md R76) -/

theorem Opcode.ofCode_eq_none_iff (b : Byte) : Opcode.ofCode b = none ↔ ∀ o : Opcode, b ≠ o.code := by
  simp only [Opcode.ofCode, List.find?_eq_none, Opcode.mem_all, beq_iff_eq, forall_const]
  exact forall_congr' fun _ => ne_comm

theorem decode_eq_unassignedOpcode_iff (w : Word) :
    decode w = .illegal .unassignedOpcode ↔ ∀ o : Opcode, fieldOp w ≠ o.code := by
  rw [← Opcode.ofCode_eq_none_iff]
  unfold decode
  split
  · simp [*]
  · split <;> simp [*]

theorem decode_eq_mustBeZero_iff (w : Word) :
    decode w = .illegal .mustBeZero ↔ ∃ o : Opcode, fieldOp w = o.code ∧ w &&& o.mask ≠ o.pattern := by
  constructor
  · intro h
    cases hc : Opcode.ofCode (fieldOp w) with
    | none => simp [decode, hc] at h
    | some o =>
      have ho := (Opcode.code_of_ofCode hc).symm
      refine ⟨o, ho, fun hm => ?_⟩
      rw [decode_of_fieldOp ho, if_pos hm] at h
      cases h
  · rintro ⟨o, ho, hm⟩
    rw [decode_of_fieldOp ho, if_neg hm]

/-- An opcode is in no row exactly if its number is none of the `op` column (30_encoding.md R74). -/
theorem unassigned_iff_toNat (b : Byte) :
    (∀ o : Opcode, b ≠ o.code) ↔ ∀ n ∈ Opcode.all.map (fun o => o.code.toNat), b.toNat ≠ n := by
  simp [Opcode.mem_all, BitVec.toNat_inj]

end Sys2Proof

namespace Sys2Proof.Machine

/-! ### Assembled commands (30_encoding.md R82) -/

/-- A line other than `.word` makes the encoding of a command. -/
theorem eq_encode_of_assembleOp {mnemonic : List Char} {ops : List (List Char)} {w : Word} (hm : mnemonic ≠ ".word".toList)
    (h : assembleOp mnemonic ops = .ok w) : ∃ i, w = encode i := by
  unfold assembleOp at h
  rw [if_neg hm] at h
  split at h
  · cases h
  · rename_i row _
    cases hrow : row.2.apply ops with
    | error e => rw [hrow] at h; cases h
    | ok i => rw [hrow] at h; cases h; exact ⟨i, rfl⟩

/-! ### The place of the build in a command's execution (30_encoding.md R78) -/

section Build
variable {s : State} {c : InProgress}

theorem buildsTable_of_command {w : Word} {i : Instr} (h : decode w = .command i) : buildsTable w = needsTable i.opcode := by
  simp [buildsTable, h]

theorem command_of_buildsTable {w : Word} (h : buildsTable w = true) : ∃ i, decode w = .command i ∧ needsTable i.opcode = true := by
  unfold buildsTable at h
  split at h
  · cases h
  · exact ⟨_, ‹_›, h⟩

/-- Building the table before the completion of a command that would build it itself changes nothing (41_inverse_cache.md R154). -/
theorem runCommand_build (ha : s.active = some c) (hn : buildsTable c.word = true) (hv : s.invValid = false) :
    runCommand s.build = runCommand s := by
  obtain ⟨i, hd, hi⟩ := command_of_buildsTable hn
  have hab : s.build.active = some { c with building := false } := by simp [ha]
  calc runCommand s.build
    _ = exec i s.build := runCommand_command s.build hab hd
    _ = exec i s.ensureBuilt := by rw [State.ensureBuilt_of_not_valid s hv]
    _ = exec i s := exec_ensureBuilt s hi
    _ = runCommand s := (runCommand_command s ha hd).symm

/-- The end of the build is the same whether or not its beginning was an event of its own. -/
theorem build_startBuild (s : State) : s.startBuild.build = s.build := by
  unfold State.startBuild
  split
  · rfl
  · split <;> simp [State.build, *]

theorem runCommand_startBuild (s : State) : runCommand s.startBuild = runCommand s := by
  cases ha : s.active with
  | none => rw [startBuild_idle s ha]
  | some c =>
    cases hb : buildsTable c.word && !s.invValid with
    | false => rw [startBuild_busy s ha, hb]; rfl
    | true =>
      obtain ⟨hn, hv⟩ : buildsTable c.word = true ∧ s.invValid = false := by simpa using hb
      have hstart : s.startBuild = { s with active := some { c with building := true } } := by
        rw [startBuild_busy s ha, hb]; rfl
      calc runCommand s.startBuild
        _ = runCommand s.startBuild.build := by
          rw [hstart]
          exact (runCommand_build (s := { s with active := some { c with building := true } }) rfl hn hv).symm
        _ = runCommand s.build := by rw [build_startBuild]
        _ = runCommand s := runCommand_build ha hn hv

theorem runCommand_endBuild (h : s.BuildSound) : runCommand s.endBuild = runCommand s := by
  cases ha : s.active with
  | none => rw [endBuild_idle s ha]
  | some c =>
    rw [endBuild_busy s ha]
    split
    · rename_i hb
      obtain ⟨hv, hn⟩ := h c ha hb
      exact runCommand_build ha hn hv
    · rfl

end Build

/-! ### The steps of the command in progress -/

/-- An instant of the command in progress that comes next is what the step does. -/
theorem step_progress {s : State} {p : Progress} {rest : List Input} (hc : s.busy = true ∨ s.held = none)
    (hi : s.inputs = .progress p :: rest) : step s = advance p { s with inputs := rest } := by
  rw [step_inputs s hc, hi]

/-- Writing a register's own value back leaves it. -/
theorem State.x_set_reg (s : State) (r : RegIdx) : s.x.set r.val (s.reg r) r.isLt = s.x := Vector.set_getElem_self r.isLt

/-- A write and an OK completion, as one record: what the commands of 30_encoding.md R85 and R86 leave. -/
theorem complete_writeBack (s : State) (rd : RegIdx) (v : Byte) : (s.writeBack rd v).complete .ok =
    { s with x := s.x.set rd.val v, result := v.setWidth 32, lastErr := 0#4, active := none } := rfl

/-! ### The statements of 30_encoding.md -/

/-- Settles O2: an operand is typed to its field, and the round trip is `decode_encode`. -/
theorem decodeOfEncodeIsTheCommand : Obligations.DecodeOfEncodeIsTheCommand :=
  fun i => ⟨wellFormed_instr i, decode_encode i⟩

/-- Settles O3: the word and the encoding agree on the row's mask and have the same operands. -/
theorem encodeOfDecodeIsTheWord : Obligations.EncodeOfDecodeIsTheWord := fun _ _ => encode_of_decode

/-- Settles O4: the two refusals of the decode check, the gaps of the opcode map, and what an illegal word raises. -/
theorem illegalWordsAreExactlyThese : Obligations.IllegalWordsAreExactlyThese := by
  refine ⟨decode_eq_unassignedOpcode_iff, decode_eq_mustBeZero_iff, fun b => ?gaps,
    fun s _ _ ha hd => ⟨s.complete .illegalCmd, runCommand_illegal s ha hd, rfl⟩⟩
  case gaps =>
    have hlt := b.isLt
    rw [unassigned_iff_toNat]
    simp only [Opcode.all, Opcode.code, List.map_cons, List.map_nil, List.forall_mem_cons, BitVec.reduceToNat,
      List.not_mem_nil, false_imp_iff, implies_true, and_true]
    omega

/-- Settles O5: the line makes an encoding, which the decoder reads back. -/
theorem assembledCommandsAreLegal : Obligations.AssembledCommandsAreLegal := by
  intro mnemonic ops w hm h
  obtain ⟨i, rfl⟩ := eq_encode_of_assembleOp hm h
  exact ⟨i, decode_encode i, rfl⟩

/-- Settles O56: the build commutes with the completion, and its two instants are `startBuild` and `endBuild`. -/
theorem visibleInstantsDoNotChangeTheOutcome : Obligations.VisibleInstantsDoNotChangeTheOutcome := by
  refine ⟨fun s h => ⟨runCommand_startBuild s, runCommand_endBuild h⟩, fun s c i rest ha hd hi => ?_, fun s c rest ha hi => ?_⟩
  · have hb : s.busy = true := (State.busy_eq_true_iff s).2 ⟨c, ha⟩
    rw [step_progress (.inl hb) hi, advance, startBuild_busy { s with inputs := rest } ha, buildsTable_of_command hd]
    simp only [Bool.and_eq_true, needsTable_iff, Bool.not_eq_true', and_comm]
  · have hb : s.busy = true := (State.busy_eq_true_iff s).2 ⟨c, ha⟩
    rw [step_progress (.inl hb) hi, advance, endBuild_busy { s with inputs := rest } ha]
    simp only [State.build, ha, Option.map_some]

/-- Settles O1: each worked word is the encoding of its command, which the decoder reads back. -/
theorem workedWordsAreTheirCommands : Obligations.WorkedWordsAreTheirCommands := by
  have hgmul : encode (.gmul 3 1 2) = 0x12312000#32 := by decide
  have hlpset : encode (.lpset 2#8 5#8 0x18#8) = 0x30051802#32 := by decide
  have hpevali : encode (.pevali 4 4#8 3#8) = 0x29400403#32 := by decide
  exact ⟨hgmul ▸ decode_encode _, hgmul, hlpset ▸ decode_encode _, hlpset, hpevali ▸ decode_encode _, hpevali⟩

/-- Settles O6: each expansion's meaning, with the sum by 0 and the register written with its own value said as laws. -/
theorem pseudoInstructionsDoWhatTheyName : Obligations.PseudoInstructionsDoWhatTheyName := by
  intro rd rs imm idx s
  refine ⟨?gmov, ?gneg, ?gsubi, ?gclr, ?gsqr, ⟨_, exec_pcset s 0#8 idx, rfl, fun hwf a => ?pcclr⟩, ?gout⟩
  case gmov | gneg => rw [Pseudo.expand, exec_gaddi, gadd_zero, complete_writeBack]
  case gsubi => rw [Pseudo.expand, exec_gaddi, complete_writeBack, gsub, gadd]
  case gclr => rw [Pseudo.expand, exec_gli, complete_writeBack, BitVec.setWidth_zero]
  case gsqr => rw [Pseudo.expand, exec_gmul, complete_writeBack]
  case pcclr => exact Memory.read_write idx.toNat a 0#8 hwf
  case gout => rw [Pseudo.expand, exec_gaddi, gadd_zero, complete_writeBack, State.x_set_reg]

/-- Settles O54: the three events that complete the command in progress, each of them `runCommand`. -/
theorem stepRunsTheDecodedCommand : Obligations.StepRunsTheDecodedCommand := by
  intro s c ha
  have hb : s.busy = true := (State.busy_eq_true_iff s).2 ⟨c, ha⟩
  refine ⟨fun i hd => ⟨fun hi => ?_, fun rest hi => ?_, fun a b rest hh hheld hi => ?_⟩, fun r rest hd hi => ?_⟩
  · exact (step_no_inputs (.inl hb) hi).trans (runCommand_command s ha hd)
  · exact (step_progress (.inl hb) hi).trans (runCommand_command { s with inputs := rest } ha hd)
  · exact (step_wait hb (by simp [hh]) hheld hi).trans (runCommand_command s ha hd)
  · exact (step_progress (.inl hb) hi).trans (runCommand_illegal { s with inputs := rest } ha hd)

end Sys2Proof.Machine
end

section
/-! PROOF. The statements of 40_field.md: gmul makes the bytes a field, and the commands of the field group do what they name. -/

namespace Sys2Proof

/-! ### Words with a must-be-zero field at any value (30_encoding.md R72, R76) -/

/-- A register number written as a 4-bit number is the register's field (30_encoding.md R73). -/
theorem ofNat_reg (r : RegIdx) : BitVec.ofNat 4 r = regBits r := BitVec.ofNat_toNat 4 (regBits r)

/-- The row's match has nothing below the opcode (30_encoding.md R74). -/
theorem Opcode.extractLsb'_pattern (o : Opcode) {k len : Nat} (hk : k + len ≤ 24) : o.pattern.extractLsb' k len = 0#len := by
  ext i hi
  simp only [Opcode.pattern, BitVec.getElem_extractLsb', BitVec.getLsbD_append, BitVec.getLsbD_zero, BitVec.getElem_zero]
  rw [if_pos (by omega)]

/-- In a word that matches its row, a field that the row's mask covers is 0. -/
theorem eq_zero_of_mask {w : Word} {o : Opcode} {k len : Nat} (h : w &&& o.mask = o.pattern) (hk : k + len ≤ 24)
    (hm : o.mask.extractLsb' k len = BitVec.allOnes len) : w.extractLsb' k len = 0#len := by
  have hfield := congrArg (BitVec.extractLsb' k len) h
  rwa [BitVec.extractLsb'_and, hm, BitVec.and_allOnes, o.extractLsb'_pattern hk] at hfield

/-- A word of a row is legal exactly if it is the encoding it would be with its must-be-zero bits 0. -/
theorem decode_eq_ite {w : Word} {o : Opcode} {i : Instr} {p : Prop} [Decidable p] (hop : fieldOp w = o.code)
    (henc : p → w = encode i) (hmask : w &&& o.mask = o.pattern → p) :
    decode w = if p then .command i else .illegal .mustBeZero := by
  split
  · rename_i hp
    rw [henc hp, decode_encode]
  · rename_i hp
    exact (decode_eq_mustBeZero_iff w).2 ⟨o, hop, fun h => hp (hmask h)⟩

/-- A word of a row whose only must-be-zero field is `z` is legal exactly if `z` is 0. -/
theorem decode_of_zeroField {w : Word} {o : Opcode} {i : Instr} {k len : Nat} {z : BitVec len} (hop : fieldOp w = o.code)
    (henc : z = 0#len → w = encode i) (hz : w.extractLsb' k len = z) (hk : k + len ≤ 24)
    (hm : o.mask.extractLsb' k len = BitVec.allOnes len) :
    decode w = if z = 0#len then .command i else .illegal .mustBeZero :=
  decode_eq_ite hop henc fun h => hz ▸ eq_zero_of_mask h hk hm

section Formats
variable {o : Opcode} {i : Instr} {rd rs1 rs2 : RegIdx} {imm : Byte}

theorem decode_formatR (hf : o.format = .R) (hi : encode i = layoutR o rd rs1 rs2) (z : BitVec 12) :
    decode (o.code ++ BitVec.ofNat 4 rd ++ BitVec.ofNat 4 rs1 ++ BitVec.ofNat 4 rs2 ++ z) =
      if z = 0#12 then .command i else .illegal .mustBeZero := by
  simp only [ofNat_reg]
  refine decode_of_zeroField (k := 0) ?op (fun hz => by rw [hz, hi, layoutR]) ?field (by decide) (by rw [Opcode.mask, hf]; rfl)
  case op | field =>
    simp (disch := decide) only [fieldOp, BitVec.extractLsb'_append_eq_of_le, BitVec.extractLsb'_append_eq_of_add_le,
      BitVec.extractLsb'_eq_self, Nat.reduceSub]

theorem decode_formatU (hf : o.format = .U) (hi : encode i = layoutU o rd rs1) (z : BitVec 16) :
    decode (o.code ++ BitVec.ofNat 4 rd ++ BitVec.ofNat 4 rs1 ++ z) =
      if z = 0#16 then .command i else .illegal .mustBeZero := by
  simp only [ofNat_reg]
  refine decode_of_zeroField (k := 0) ?op (fun hz => by rw [hz, hi, layoutU]) ?field (by decide) (by rw [Opcode.mask, hf]; rfl)
  case op | field =>
    simp (disch := decide) only [fieldOp, BitVec.extractLsb'_append_eq_of_le, BitVec.extractLsb'_append_eq_of_add_le,
      BitVec.extractLsb'_eq_self, Nat.reduceSub]

theorem decode_formatI (hf : o.format = .I) (hi : encode i = layoutI o rd rs1 imm) (z : BitVec 8) :
    decode (o.code ++ BitVec.ofNat 4 rd ++ BitVec.ofNat 4 rs1 ++ z ++ imm) =
      if z = 0#8 then .command i else .illegal .mustBeZero := by
  simp only [ofNat_reg]
  refine decode_of_zeroField (k := 8) ?op (fun hz => by rw [hz, hi, layoutI]) ?field (by decide) (by rw [Opcode.mask, hf]; rfl)
  case op | field =>
    simp (disch := decide) only [fieldOp, BitVec.extractLsb'_append_eq_of_le, BitVec.extractLsb'_append_eq_of_add_le,
      BitVec.extractLsb'_eq_self, Nat.reduceSub]

theorem decode_formatL (hf : o.format = .L) (hi : encode i = layoutL o rd imm) (z : BitVec 12) :
    decode (o.code ++ BitVec.ofNat 4 rd ++ z ++ imm) = if z = 0#12 then .command i else .illegal .mustBeZero := by
  simp only [ofNat_reg]
  refine decode_of_zeroField (k := 8) ?op (fun hz => by rw [hz, hi, layoutL]) ?field (by decide) (by rw [Opcode.mask, hf]; rfl)
  case op | field =>
    simp (disch := decide) only [fieldOp, BitVec.extractLsb'_append_eq_of_le, BitVec.extractLsb'_append_eq_of_add_le,
      BitVec.extractLsb'_eq_self, Nat.reduceSub]

end Formats

end Sys2Proof

namespace Sys2Proof.Machine

/-! ### The multiply loop (40_field.md R103) -/

/-- What the loop answers is made of its accumulator and its first factor by additions and multiplications by x. -/
theorem gmulLoop_closed {P : Byte → Prop} (hx : ∀ a, P a → P (xtime a)) (hadd : ∀ a b, P a → P b → P (a ^^^ b)) :
    ∀ (n : Nat) (a b p : Byte), P a → P p → P (gmulLoop n a b p)
  | 0, _, _, _, _, hp => hp
  | n + 1, a, b, p, ha, hp => by
    refine gmulLoop_closed hx hadd n _ _ _ (hx a ha) ?_
    split
    · exact hadd p a hp ha
    · exact hp

@[simp] theorem xtime_zero : xtime 0#8 = 0#8 := by decide

/-- The loop commutes with the multiplication of its first factor by x. -/
theorem gmulLoop_xtime (n : Nat) (a b : Byte) : gmulLoop n (xtime a) b 0#8 = xtime (gmulLoop n a b 0#8) := by
  induction n generalizing a b with
  | zero => exact xtime_zero.symm
  | succ n ih =>
    simp only [gmulLoop]
    rw [gmulLoop_acc, gmulLoop_acc n (xtime a), ih, xtime_xor]
    split
    · simp only [BitVec.zero_xor]
    · rfl

theorem gmul_xtime_left (a b : Byte) : gmul (xtime a) b = xtime (gmul a b) := gmulLoop_xtime 8 a b

@[simp] theorem gmul_zero (a : Byte) : gmul a 0#8 = 0#8 := by simp [gmul, gmulLoop]
@[simp] theorem gmul_one (a : Byte) : gmul a 1#8 = a := by simp [gmul, gmulLoop]
@[simp] theorem one_gmul : ∀ a : Byte, gmul 1#8 a = a := by decide +kernel
@[simp] theorem zero_gmul (a : Byte) : gmul 0#8 a = 0#8 := by
  have h := gmul_xor_left 0#8 0#8 a
  rwa [BitVec.xor_self, BitVec.xor_self] at h

/-- The bytes are made of 0 and 1 by additions and multiplications by x: each is its product by 1 (40_field.md R103). -/
theorem field_induction {P : Byte → Prop} (zero : P 0#8) (one : P 1#8) (mulX : ∀ a, P a → P (xtime a))
    (add : ∀ a b, P a → P b → P (a ^^^ b)) (a : Byte) : P a := by
  rw [← one_gmul a]
  exact gmulLoop_closed mulX add 8 1#8 a 0#8 one zero

/-! ### The field laws (40_field.md R105) -/

/-- Multiplication distributes over addition in its second factor. -/
theorem gmul_xor_right (a b c : Byte) : gmul a (b ^^^ c) = gmul a b ^^^ gmul a c := by
  induction a using field_induction with
  | zero => simp only [zero_gmul, BitVec.xor_zero]
  | one => simp only [one_gmul]
  | mulX a ih => simp only [gmul_xtime_left, ih, xtime_xor]
  | add a a' ih ih' =>
    simp only [gmul_xor_left, ih, ih']
    ac_rfl

theorem gmul_xtime_right (a b : Byte) : gmul a (xtime b) = xtime (gmul a b) := by
  induction a using field_induction with
  | zero => rw [zero_gmul, zero_gmul, xtime_zero]
  | one => simp only [one_gmul]
  | mulX a ih => simp only [gmul_xtime_left, ih]
  | add a a' ih ih' => simp only [gmul_xor_left, ih, ih', xtime_xor]

theorem gmul_comm (a b : Byte) : gmul a b = gmul b a := by
  induction a using field_induction with
  | zero => rw [zero_gmul, gmul_zero]
  | one => rw [one_gmul, gmul_one]
  | mulX a ih => rw [gmul_xtime_left, gmul_xtime_right, ih]
  | add a a' ih ih' => rw [gmul_xor_left, gmul_xor_right, ih, ih']

theorem gmul_assoc (a b c : Byte) : gmul (gmul a b) c = gmul a (gmul b c) := by
  induction a using field_induction with
  | zero => simp only [zero_gmul]
  | one => simp only [one_gmul]
  | mulX a ih => simp only [gmul_xtime_left, ih]
  | add a a' ih ih' => simp only [gmul_xor_left, ih, ih']

/-! ### Inverses and quotients (40_field.md R106 to R108) -/

theorem ginv_gmul {a : Byte} (ha : a ≠ 0#8) : gmul (ginv a) a = 1#8 := by rw [gmul_comm, gmul_ginv a ha]

/-- A product by a nonzero element determines the other factor. -/
theorem ginv_gmul_cancel {a : Byte} (ha : a ≠ 0#8) (b : Byte) : gmul (ginv a) (gmul a b) = b := by
  rw [← gmul_assoc, ginv_gmul ha, one_gmul]

theorem eq_zero_of_gmul_eq_zero {a b : Byte} (h : gmul a b = 0#8) : a = 0#8 ∨ b = 0#8 := by
  by_cases ha : a = 0#8
  · exact .inl ha
  · right
    rw [← ginv_gmul_cancel ha b, h, gmul_zero]

/-- The inverse of a is the only element whose product with a is 1. -/
theorem eq_ginv_of_gmul_eq_one {a b : Byte} (h : gmul a b = 1#8) : b = ginv a := by
  have ha : a ≠ 0#8 := by
    rintro rfl
    rw [zero_gmul] at h
    exact absurd h (by decide)
  rw [← ginv_gmul_cancel ha b, h, gmul_one]

theorem ginv_ginv {a : Byte} (ha : a ≠ 0#8) : ginv (ginv a) = a := (eq_ginv_of_gmul_eq_one (ginv_gmul ha)).symm

theorem gdiv_gmul_cancel (a : Byte) {b : Byte} (hb : b ≠ 0#8) : gmul (gdiv a b) b = a := by
  rw [gdiv, gmul_assoc, ginv_gmul hb, gmul_one]

@[simp] theorem zero_gdiv (b : Byte) : gdiv 0#8 b = 0#8 := zero_gmul _

theorem gdiv_self {a : Byte} (ha : a ≠ 0#8) : gdiv a a = 1#8 := gmul_ginv a ha

/-! ### The orders of 0x02 and 0x03 (40_field.md R105) -/

/-- A power is reached by multiplying 1 by the base again and again. -/
theorem gpow_eq_iterate (g : Byte) (n : Nat) : gpow g n = (gmul · g)^[n] 1#8 := by
  induction n with
  | zero => rfl
  | succ n ih => rw [Function.iterate_succ_apply', ← ih, gpow]

theorem gpow_eq_one_iff (g : Byte) (n : Nat) : gpow g n = 1#8 ↔ Function.IsPeriodicPt (gmul · g) n 1#8 := by
  rw [gpow_eq_iterate]
  rfl

/-- An exponent m with g^m = 1 is the order of g if no proper divisor of m is such an exponent. -/
theorem order_eq {g : Byte} {m : Nat} (hm : m ≠ 0) (h : gpow g m = 1#8) (hd : ∀ d ∈ m.properDivisors, gpow g d ≠ 1#8) :
    Function.minimalPeriod (gmul · g) 1#8 = m := by
  have hdvd := ((gpow_eq_one_iff g m).1 h).minimalPeriod_dvd
  by_contra hne
  refine hd _ (Nat.mem_properDivisors.2 ⟨hdvd, lt_of_le_of_ne (Nat.le_of_dvd (Nat.pos_of_ne_zero hm) hdvd) hne⟩) ?_
  exact (gpow_eq_one_iff g _).2 (Function.isPeriodicPt_minimalPeriod _ _)

theorem order_two : Function.minimalPeriod (gmul · 0x02#8) 1#8 = 51 :=
  order_eq (by decide) (by decide +kernel) (by decide +kernel)

theorem order_three : Function.minimalPeriod (gmul · 0x03#8) 1#8 = 255 :=
  order_eq (by decide) (by decide +kernel) (by decide +kernel)

theorem gpow_ne_zero {g : Byte} (hg : g ≠ 0#8) (n : Nat) : gpow g n ≠ 0#8 := by
  induction n with
  | zero => exact (by decide : (1#8 : Byte) ≠ 0#8)
  | succ n ih => exact fun h => (eq_zero_of_gmul_eq_zero h).elim ih hg

/-- There are 255 nonzero elements. -/
theorem card_nonzero : (Finset.univ.erase (0#8 : Byte)).card = 255 := by
  rw [Finset.card_erase_of_mem (Finset.mem_univ _), Finset.card_univ, ← FinEnum.card_eq_fintypeCard, FinEnum.card_bitVec]
  rfl

/-- The 255 powers of 0x03 below its order are distinct and nonzero, so they are all the nonzero elements. -/
theorem exists_gpow_three {a : Byte} (ha : a ≠ 0#8) : ∃ n, n < 255 ∧ gpow 0x03#8 n = a := by
  have hinj : Set.InjOn (gpow 0x03#8) (Finset.range 255) := by
    have h := Function.iterate_injOn_Iio_minimalPeriod (f := (gmul · 0x03#8)) (x := 1#8)
    simp only [order_three, ← gpow_eq_iterate] at h
    rwa [Finset.coe_range]
  have hmaps : Set.MapsTo (gpow 0x03#8) (Finset.range 255) (Finset.univ.erase (0#8 : Byte)) := fun n _ => by
    simpa using gpow_ne_zero (by decide) n
  have hsurj := Finset.surjOn_of_injOn_of_card_le _ hmaps hinj (by rw [card_nonzero, Finset.card_range])
  obtain ⟨n, hn, hna⟩ := hsurj (by simpa using ha : a ∈ (Finset.univ.erase (0#8 : Byte) : Set Byte))
  exact ⟨n, by simpa using hn, hna⟩

/-! ### The table inside a command (41_inverse_cache.md R152, R155) -/

/-- An entry of a table of inverses is what ginv gives. -/
theorem InverseTable.read_eq_ginv {m : Memory} (h : InverseTable m) {a : Byte} (ha : a ≠ 0#8) : m.read a.toNat = ginv a :=
  eq_ginv_of_gmul_eq_one (h a ha)

/-- After the build on first need the table holds the inverses. -/
theorem State.TableSound.inverseTable_ensureBuilt {s : State} (h : s.TableSound) : InverseTable s.ensureBuilt.inv := by
  cases hv : s.invValid with
  | true => rw [State.ensureBuilt_of_valid s hv]; exact h hv
  | false => rw [State.ensureBuilt_of_not_valid s hv]; exact State.tableSound_build s rfl

/-- The build on first need keeps a table already built (41_inverse_cache.md R154). -/
theorem State.ensureBuilt_inv_of_valid {s : State} (h : s.invValid = true) : s.ensureBuilt.inv = s.inv := by
  rw [State.ensureBuilt_of_valid s h]

/-- The build and a completion, as one record. -/
theorem complete_ensureBuilt (s : State) (e : ErrorCode) : s.ensureBuilt.complete e = { s with
    inv := s.ensureBuilt.inv, invValid := true, lastErr := e.code, stickyErr := stickyAfter s.stickyErr e, active := none } := by
  cases hv : s.invValid with
  | true => rw [State.ensureBuilt_of_valid s hv, ← hv]; rfl
  | false => rw [State.ensureBuilt_of_not_valid s hv]; rfl

/-- The build, a write and an OK completion, as one record. -/
theorem complete_writeBack_ensureBuilt (s : State) (rd : RegIdx) (v : Byte) :
    (s.ensureBuilt.writeBack rd v).complete .ok = { s with
      x := s.x.set rd.val v, result := v.setWidth 32,
      inv := s.ensureBuilt.inv, invValid := true, lastErr := 0#4, active := none } := by
  cases hv : s.invValid with
  | true => rw [State.ensureBuilt_of_valid s hv, ← hv]; rfl
  | false => rw [State.ensureBuilt_of_not_valid s hv]; rfl

/-! ### The statements of 40_field.md -/

/-- Settles O13: the laws by induction over how a byte is made, the orders by the divisors of 255 and 51. -/
theorem gmulObeysTheFieldLaws : Obligations.GmulObeysTheFieldLaws := by
  refine ⟨gmul_comm, gmul_assoc, gmul_xor_right, gmul_one, gmul_zero, fun _ _ => eq_zero_of_gmul_eq_zero,
    fun _ => exists_gpow_three, ?order, fun n h0 hn h => ?least⟩
  case order => rw [gpow_eq_one_iff, ← order_two]; exact Function.isPeriodicPt_minimalPeriod _ _
  case least =>
    exact Function.not_isPeriodicPt_of_pos_of_lt_minimalPeriod h0.ne' (order_two.symm ▸ hn) ((gpow_eq_one_iff _ n).1 h)

/-- Settles O14: exclusive-or undoes itself, and a product by the inverse undoes a product. -/
theorem additionAndDivisionUndoThemselves : Obligations.AdditionAndDivisionUndoThemselves :=
  ⟨fun _ => BitVec.xor_self, fun _ _ => rfl, gmul_ginv, fun a b hb => ⟨rfl, gdiv_gmul_cancel a hb, zero_gdiv b⟩⟩

/-- Settles O15: format R, and the sum of a register with itself is 0. -/
theorem gaddXorsTwoRegisters : Obligations.GaddXorsTwoRegisters := by
  intro rd rs1 rs2 z s
  refine ⟨decode_formatR (o := .gadd) rfl rfl z, ?_, ?_⟩
  · rw [exec_gadd, complete_writeBack, gadd]
  · rintro rfl
    exact BitVec.xor_self

/-- Settles O16: format R; subtraction is addition, which commutes. -/
theorem gsubXorsTwoRegisters : Obligations.GsubXorsTwoRegisters := by
  intro rd rs1 rs2 z s
  refine ⟨decode_formatR (o := .gsub) rfl rfl z, ?_, rfl, ?_⟩
  · rw [exec_gsub, complete_writeBack, gsub]
  · rw [exec_gsub, exec_gsub, gsub, gsub, BitVec.xor_comm]

/-- Settles O17: format R, and the products by 0 and 1. -/
theorem gmulMultipliesTwoRegisters : Obligations.GmulMultipliesTwoRegisters := by
  intro rd rs1 rs2 z s
  refine ⟨decode_formatR (o := .gmul) rfl rfl z, ?next, ?zero, fun h => ?left, fun h => ?right, by decide⟩
  case next => rw [exec_gmul, complete_writeBack]
  case zero =>
    rintro (h | h)
    · rw [h, zero_gmul]
    · rw [h, gmul_zero]
  case left => rw [h, one_gmul]
  case right => rw [h, gmul_one]

/-- Settles O18: the table after the build on first need is one of inverses, so the entry of the divisor gives the quotient. -/
theorem gdivDividesOrRaises : Obligations.GdivDividesOrRaises := by
  intro rd rs1 rs2 z s hs
  have htable := hs.inverseTable_ensureBuilt
  refine ⟨decode_formatR (o := .gdiv) rfl rfl z, s.ensureBuilt.inv, htable, State.ensureBuilt_inv_of_valid, fun h => ?zero,
    fun h => ⟨_, rfl, gdiv_gmul_cancel _ h, fun h0 => ?dividend, fun heq => ?equal, ?quotient⟩⟩
  case zero => rw [exec_gdiv_zero s rd rs1 rs2 h, complete_ensureBuilt]; rfl
  case dividend => rw [h0, zero_gdiv]
  case equal => rw [heq, gdiv_self h]
  case quotient =>
    rw [exec_gdiv s rd rs1 rs2 h, State.inverse, htable.read_eq_ginv h, complete_writeBack_ensureBuilt, gdiv]

/-- Settles O19: the table after the build on first need is one of inverses, and the inverse of the inverse is the operand. -/
theorem ginvInvertsOrRaises : Obligations.GinvInvertsOrRaises := by
  intro rd rs1 z s hs
  have htable := hs.inverseTable_ensureBuilt
  refine ⟨decode_formatU (o := .ginv) rfl rfl z, (eq_ginv_of_gmul_eq_one (one_gmul 1#8)).symm, s.ensureBuilt.inv, htable,
    State.ensureBuilt_inv_of_valid, fun h => ?zero, fun h => ⟨_, rfl, gmul_ginv _ h, ginv_ginv h, ?inverse⟩⟩
  case zero => rw [exec_ginv_zero s rd rs1 h, complete_ensureBuilt]; rfl
  case inverse => rw [exec_ginv s rd rs1 h, State.inverse, htable.read_eq_ginv h, complete_writeBack_ensureBuilt]

/-- Settles O20: format I, and the sum with 0. -/
theorem gaddiXorsAnImmediate : Obligations.GaddiXorsAnImmediate := by
  intro rd rs1 imm z s
  refine ⟨decode_formatI (o := .gaddi) rfl rfl z, ?_, BitVec.xor_zero⟩
  rw [exec_gaddi, complete_writeBack, gadd]

/-- Settles O21: format I, and the products by 0 and 1. -/
theorem gmuliMultipliesByAnImmediate : Obligations.GmuliMultipliesByAnImmediate := by
  intro rd rs1 imm z s
  refine ⟨decode_formatI (o := .gmuli) rfl rfl z, ?_, gmul_zero _, gmul_one _, by decide⟩
  rw [exec_gmuli, complete_writeBack]

/-- Settles O22: format L. -/
theorem gliLoadsAnImmediate : Obligations.GliLoadsAnImmediate := by
  intro rd imm z s
  refine ⟨decode_formatL (o := .gli) rfl rfl z, ?_⟩
  rw [exec_gli, complete_writeBack]

end Sys2Proof.Machine
end

section
/-! PROOF. The statements of 41_inverse_cache.md: INVB, which commands build the table, what an entry of the table is, and the
table the spec prints. -/

namespace Sys2Proof

/-- In format N every bit below the opcode must be 0 (30_encoding.md R72). -/
theorem decode_formatN {o : Opcode} {i : Instr} (hf : o.format = .N) (hi : encode i = o.pattern) (z : BitVec 24) :
    decode (o.code ++ z) = if z = 0#24 then .command i else .illegal .mustBeZero := by
  refine decode_of_zeroField (k := 0) ?op (fun hz => by rw [hz, hi, Opcode.pattern]) ?field (by decide)
    (by rw [Opcode.mask, hf]; rfl)
  case op => exact fieldOp_append o.code z
  case field => exact BitVec.extractLsb'_append_eq_right

end Sys2Proof

namespace Sys2Proof.Machine

/-! ### The commands that build the table (41_inverse_cache.md R152) -/

theorem needsTable_opcode_iff (i : Instr) : needsTable i.opcode = true ↔
    i = .invb ∨ (∃ rd rs1, i = .ginv rd rs1) ∨ (∃ rd rs1 rs2, i = .gdiv rd rs1 rs2) ∨ (∃ rd n, i = .lagr rd n) := by
  cases i <;> simp [Instr.opcode, needsTable]

/-- From an unbuilt table, the table a command leaves is built exactly if the command needs it. -/
theorem CommandWrites.invValid_of_unbuilt {s t : State} {i : Instr} (h : CommandWrites s i t) (hv : s.invValid = false) :
    t.invValid = needsTable i.opcode := by
  obtain ⟨-, ht⟩ := h.table
  cases hn : needsTable i.opcode with
  | true => rw [ht, State.builtFor, if_pos hn, State.ensureBuilt_invValid]
  | false => rw [ht, s.builtFor_of_not_needsTable i hn, hv]

/-! ### The built table (41_inverse_cache.md R153, R159) -/

theorem inverseTable_builtTable : InverseTable builtTable := State.tableSound_build State.reset rfl

/-- The printed entry of an element is what the scan of the build finds for it, since each element has one inverse only. -/
theorem ginv_eq_printedEntry (k : Nat) (hk : k < 255) : ginv (BitVec.ofNat 8 (k + 1)) = printedTable.getD k 0#8 :=
  (eq_ginv_of_gmul_eq_one (gmul_printedEntry ⟨k, hk⟩)).symm

theorem length_printedTable : printedTable.length = 255 := by decide +kernel

theorem map_ginv_eq_printedTable : (List.range 255).map (fun k => ginv (BitVec.ofNat 8 (k + 1))) = printedTable := by
  refine List.ext_getElem (by simp [length_printedTable]) fun k _ hk => ?_
  rw [List.getElem_map, List.getElem_range, ginv_eq_printedEntry k (by rwa [← length_printedTable]),
    List.getD_eq_getElem _ _ hk]

/-! ### The element that is its own inverse (41_inverse_cache.md R159) -/

/-- Squaring is additive, because the two cross products are equal and cancel. -/
theorem gmul_self_xor (a b : Byte) : gmul (a ^^^ b) (a ^^^ b) = gmul a a ^^^ gmul b b := by
  rw [gmul_xor_left, gmul_xor_right, gmul_xor_right, gmul_comm b a]
  calc gmul a a ^^^ gmul a b ^^^ (gmul a b ^^^ gmul b b)
    _ = gmul a a ^^^ gmul b b ^^^ (gmul a b ^^^ gmul a b) := by ac_rfl
    _ = gmul a a ^^^ gmul b b := by rw [BitVec.xor_self, BitVec.xor_zero]

/-- 1 is the only square root of 1: the square of a + 1 is 0, so a + 1 is 0. -/
theorem gmul_self_eq_one_iff (a : Byte) : gmul a a = 1#8 ↔ a = 1#8 := by
  constructor
  · intro h
    have hsquare : gmul (a ^^^ 1#8) (a ^^^ 1#8) = 0#8 := by rw [gmul_self_xor, h, gmul_one, BitVec.xor_self]
    exact BitVec.xor_eq_zero_iff.1 (or_self_iff.1 (eq_zero_of_gmul_eq_zero hsquare))
  · rintro rfl
    exact gmul_one 1#8

theorem ginv_eq_self_iff {a : Byte} (ha : a ≠ 0#8) : ginv a = a ↔ a = 1#8 := by
  rw [← gmul_self_eq_one_iff]
  constructor
  · intro h
    simpa only [h] using gmul_ginv a ha
  · intro h
    exact (eq_ginv_of_gmul_eq_one h).symm

/-! ### The statements of 41_inverse_cache.md -/

/-- Settles O8: format N, and INVB is the build on first need with an OK completion. -/
theorem invbBuildsTheTable : Obligations.InvbBuildsTheTable := by
  intro z s hs
  refine ⟨decode_formatN (o := .invb) rfl rfl z, s.ensureBuilt.inv, hs.inverseTable_ensureBuilt,
    State.ensureBuilt_inv_of_valid, ?_⟩
  rw [exec_invb, complete_ensureBuilt]
  rfl

/-- Settles O9: INV_VALID after a command is 1 exactly if its build ran, so exactly if the command needs the table. -/
theorem buildRunsOnFirstNeedOnly : Obligations.BuildRunsOnFirstNeedOnly := by
  refine ⟨rfl, fun i s hv => ?_⟩
  obtain ⟨t, ht, hw⟩ := exec_writes s i
  exact ⟨t, ht, by rw [hw.invValid_of_unbuilt hv, needsTable_opcode_iff]⟩

/-- Settles O10: a product of 1 determines the other factor, so an entry of a sound table is what ginv gives. -/
theorem lookupIsTheUniqueInverse : Obligations.LookupIsTheUniqueInverse := by
  refine ⟨fun s hs hv a ha => ?entry, fun s => ⟨s.build_inv, inverseTable_builtTable⟩⟩
  case entry =>
    have hlookup : s.inverse a = ginv a := InverseTable.read_eq_ginv (hs hv) ha
    exact ⟨hlookup, hs hv a ha, fun b hb => hlookup ▸ eq_ginv_of_gmul_eq_one hb⟩

/-- Settles O11: the printed entries are inverses, so the scan finds them, and only 1 squares to 1. -/
theorem builtTableIsThePrintedTable : Obligations.BuiltTableIsThePrintedTable := by
  refine ⟨?indices, ?entries, fun _ => ginv_eq_self_iff⟩
  case indices => rw [builtTable, List.map_map]; rfl
  case entries => rw [builtTable, List.map_map]; exact map_ginv_eq_printedTable

end Sys2Proof.Machine
end

section
/-! PROOF. The statements of 42_polynomial.md: geval is the sum of powers, in Horner's form too, and the commands of the polynomial
group do what they name. -/

namespace Sys2Proof

/-! ### Words of the formats S, MS and E with a must-be-zero field at any value (30_encoding.md R72, R76) -/

section Formats
variable {o : Opcode} {i : Instr} {rd rs1 : RegIdx} {itop ihi imm : Byte}

theorem decode_formatS (hf : o.format = .S) (hi : encode i = layoutS o itop imm) (z : BitVec 8) :
    decode (o.code ++ itop ++ z ++ imm) = if z = 0#8 then .command i else .illegal .mustBeZero := by
  refine decode_of_zeroField (k := 8) ?op (fun hz => by rw [hz, hi, layoutS]) ?field (by decide) (by rw [Opcode.mask, hf]; rfl)
  case op | field =>
    simp (disch := decide) only [fieldOp, BitVec.extractLsb'_append_eq_of_le, BitVec.extractLsb'_append_eq_of_add_le,
      BitVec.extractLsb'_eq_self, Nat.reduceSub]

theorem decode_formatE (hf : o.format = .E) (hi : encode i = layoutE o rd ihi imm) (z : BitVec 4) :
    decode (o.code ++ BitVec.ofNat 4 rd ++ z ++ ihi ++ imm) = if z = 0#4 then .command i else .illegal .mustBeZero := by
  simp only [ofNat_reg]
  refine decode_of_zeroField (k := 16) ?op (fun hz => by rw [hz, hi, layoutE]) ?field (by decide) (by rw [Opcode.mask, hf]; rfl)
  case op | field =>
    simp (disch := decide) only [fieldOp, BitVec.extractLsb'_append_eq_of_le, BitVec.extractLsb'_append_eq_of_add_le,
      BitVec.extractLsb'_eq_self, Nat.reduceSub]

/-- Format MS has two must-be-zero fields, one on each side of its register. -/
theorem decode_formatMS (hf : o.format = .MS) (hi : encode i = layoutMS o rs1 imm) (z : BitVec 4) (z' : BitVec 8) :
    decode (o.code ++ z ++ BitVec.ofNat 4 rs1 ++ z' ++ imm) =
      if z = 0#4 ∧ z' = 0#8 then .command i else .illegal .mustBeZero := by
  simp only [ofNat_reg]
  refine decode_eq_ite (o := o) ?op (fun hz => by rw [hz.1, hz.2, hi, layoutMS]) fun h => ?fields
  case op =>
    simp (disch := decide) only [fieldOp, BitVec.extractLsb'_append_eq_of_le, BitVec.extractLsb'_eq_self, Nat.reduceSub]
  case fields =>
    have hz := eq_zero_of_mask (k := 20) (len := 4) h (by decide) (by rw [Opcode.mask, hf]; rfl)
    have hz' := eq_zero_of_mask (k := 8) (len := 8) h (by decide) (by rw [Opcode.mask, hf]; rfl)
    simp (disch := decide) only [BitVec.extractLsb'_append_eq_of_le, BitVec.extractLsb'_append_eq_of_add_le,
      BitVec.extractLsb'_eq_self, Nat.reduceSub] at hz hz'
    exact ⟨hz, hz'⟩

end Formats

end Sys2Proof

namespace Sys2Proof.Machine

/-! ### geval as a sum of powers (42_polynomial.md R171) -/

theorem gmul_gadd_left (a b c : Byte) : gmul (gadd a b) c = gadd (gmul a c) (gmul b c) := gmul_xor_left a b c

theorem gmul_gpow (g : Byte) (n : Nat) : gmul g (gpow g n) = gpow g (n + 1) := gmul_comm g (gpow g n)

@[simp] theorem geval_zero (coef : Memory) (pt : Byte) : geval coef 0 pt = 0#8 := rfl

/-- The last round of the loop adds its coefficient times the starting power times the power of the rounds before it. -/
theorem gevalLoop_succ_last (coef : Memory) (pt : Byte) (n i : Nat) (acc pw : Byte) :
    gevalLoop coef pt (n + 1) i acc pw =
      gadd (gevalLoop coef pt n i acc pw) (gmul (coef.read (i + n)) (gmul pw (gpow pt n))) := by
  induction n generalizing i acc pw with
  | zero => simp only [gevalLoop, gpow, gmul_one, Nat.add_zero]
  | succ n ih =>
    have hpow : gmul (gmul pw pt) (gpow pt n) = gmul pw (gpow pt (n + 1)) := by
      rw [gmul_assoc, gmul_gpow]
    have hidx : i + 1 + n = i + (n + 1) := by omega
    rw [gevalLoop, ih, hpow, hidx, ← gevalLoop]

theorem geval_succ (coef : Memory) (n : Nat) (pt : Byte) :
    geval coef (n + 1) pt = gadd (geval coef n pt) (gmul (coef.read n) (gpow pt n)) := by
  rw [geval, gevalLoop_succ_last, one_gmul, Nat.zero_add, geval]

/-! ### Horner's form (42_polynomial.md R172) -/

/-- What Horner's loop has summed is multiplied by the point once a round, so by its n-th power. -/
theorem gevalHornerLoop_eq (coef : Memory) (pt : Byte) (n : Nat) (acc : Byte) :
    gevalHornerLoop coef pt n acc = gadd (gmul acc (gpow pt n)) (geval coef n pt) := by
  induction n generalizing acc with
  | zero => simp only [gevalHornerLoop, gpow, gmul_one, geval_zero, gadd_zero]
  | succ n ih =>
    rw [gevalHornerLoop, ih, geval_succ]
    calc gadd (gmul (gadd (gmul acc pt) (coef.read n)) (gpow pt n)) (geval coef n pt)
      _ = gadd (gadd (gmul (gmul acc pt) (gpow pt n)) (gmul (coef.read n) (gpow pt n))) (geval coef n pt) := by
        rw [gmul_gadd_left]
      _ = gadd (gmul acc (gpow pt (n + 1))) (gadd (geval coef n pt) (gmul (coef.read n) (gpow pt n))) := by
        rw [gadd_assoc, gadd_comm (gmul _ _) (geval _ _ _), gmul_assoc, gmul_gpow]

/-! ### The corner cases of geval (42_polynomial.md R173) -/

theorem gpow_one (n : Nat) : gpow 1#8 n = 1#8 := by
  induction n with
  | zero => rfl
  | succ n ih => rw [gpow, ih, gmul_one]

@[simp] theorem geval_one (coef : Memory) (pt : Byte) : geval coef 1 pt = coef.read 0 := by
  rw [geval_succ, geval_zero, gpow, gmul_one, zero_gadd]

/-- At the point 0 every power but the first is 0, so only COEF[0] is left. -/
theorem geval_at_zero (coef : Memory) {n : Nat} (hn : 1 ≤ n) : geval coef n 0#8 = coef.read 0 := by
  induction n, hn using Nat.le_induction with
  | base => exact geval_one coef 0#8
  | succ n hn ih =>
    obtain ⟨m, rfl⟩ := Nat.exists_eq_add_of_le' hn
    rw [geval_succ, ih, gpow, gmul_zero, gmul_zero, gadd_zero]

/-- At the point 1 every power is 1, so the value is the sum of the coefficients. -/
theorem geval_at_one (coef : Memory) (n : Nat) :
    geval coef n 1#8 = (List.range n).foldl (fun acc i => acc ^^^ coef.read i) 0#8 := by
  induction n with
  | zero => rfl
  | succ n ih => rw [geval_succ, ih, gpow_one, gmul_one, List.range_succ, List.foldl_concat, gadd]

/-- The corner cases of an evaluation whose length is an immediate (42_polynomial.md R177, R178). -/
theorem geval_immediate_corners (coef : Memory) (len pt : Byte) :
    (len = 0#8 → geval coef len.toNat pt = 0#8) ∧ (len = 1#8 → geval coef len.toNat pt = coef.read 0) ∧
    (pt = 0#8 → len ≠ 0#8 → geval coef len.toNat pt = coef.read 0) := by
  refine ⟨?empty, ?constant, ?atZero⟩
  case empty =>
    rintro rfl
    exact geval_zero coef pt
  case constant =>
    rintro rfl
    exact geval_one coef pt
  case atZero =>
    rintro rfl hlen
    have hpos : 1 ≤ len.toNat := by bv_omega
    exact geval_at_zero coef hpos

/-! ### Stores to COEF (10_state.md R34) -/

/-- A store at or past the length of an evaluation does not change it. -/
theorem geval_write_of_le {coef : Memory} {n i : Nat} (hwf : coef.wf = true) (hi : n ≤ i) (v pt : Byte) :
    geval (coef.write i v) n pt = geval coef n pt :=
  geval_congr pt fun k hk => by rw [Memory.read_write i k v hwf, if_neg (by omega)]

/-! ### The statements of 42_polynomial.md -/

/-- Settles O28: the loop peeled at its last round. -/
theorem gevalIsTheSumOfPowers : Obligations.GevalIsTheSumOfPowers :=
  fun coef pt => ⟨geval_zero coef pt, rfl, fun len => geval_succ coef len pt⟩

/-- Settles O29: Horner's loop from the running sum 0. -/
theorem hornerGivesTheSameValue : Obligations.HornerGivesTheSameValue := by
  intro coef len pt
  rw [gevalHorner, gevalHornerLoop_eq, zero_gmul, zero_gadd]

/-- Settles O30: no term, one term, and the powers of 0 and of 1. -/
theorem gevalCornerCases : Obligations.GevalCornerCases :=
  fun coef => ⟨geval_zero coef, geval_one coef, fun _ => geval_at_zero coef, geval_at_one coef⟩

/-- Settles O23: format S, and no evaluation is longer than 255, so none reads entry 255. -/
theorem pcsetStoresAnImmediate : Obligations.PcsetStoresAnImmediate := by
  intro idx val z s hwf
  refine ⟨decode_formatS (o := .pcset) rfl rfl z, _, exec_pcset s val idx, rfl,
    fun a => Memory.read_write idx.toNat a val hwf, ?entry255⟩
  case entry255 =>
    rintro rfl len pt
    exact geval_write_of_le hwf (Nat.le_of_lt_succ len.isLt) val pt

/-- Settles O24: format MS, and the store of a register's value. -/
theorem pcstStoresARegister : Obligations.PcstStoresARegister := by
  intro idx rs1 z z' s hwf
  exact ⟨decode_formatMS (o := .pcst) rfl rfl z z', _, exec_pcst s rs1 idx, rfl,
    fun a => Memory.read_write idx.toNat a (s.reg rs1) hwf⟩

/-- Settles O25: format L, and an empty memory reads 0. -/
theorem pcldLoadsACoefficient : Obligations.PcldLoadsACoefficient := by
  intro rd idx z s
  refine ⟨decode_formatL (o := .pcld) rfl rfl z, ?_, Memory.read_nil idx.toNat⟩
  rw [exec_pcld, complete_writeBack]

/-- Settles O26: format I, and the corner cases at the register's value. -/
theorem pevalEvaluatesAtARegister : Obligations.PevalEvaluatesAtARegister := by
  intro rd rs1 len z s
  refine ⟨decode_formatI (o := .peval) rfl rfl z, ?_, geval_immediate_corners s.coef len (s.reg rs1)⟩
  rw [exec_peval, complete_writeBack]

/-- Settles O27: format E, and the corner cases at any point. -/
theorem pevaliEvaluatesAtAnImmediate : Obligations.PevaliEvaluatesAtAnImmediate := by
  intro rd pt len z s
  refine ⟨decode_formatE (o := .pevali) rfl rfl z, ?_, geval_immediate_corners s.coef len pt⟩
  rw [exec_pevali, complete_writeBack]

end Sys2Proof.Machine
end

section
/-! PROOF. The statements of 43_lagrange.md: the stores and loads of points, and glagr as the value at 0 of Mathlib's interpolating
polynomial over the field whose elements are the bytes. -/

namespace Sys2Proof

/-- Format MP has two must-be-zero fields, one on each side of its registers (30_encoding.md R72). -/
theorem decode_formatMP {o : Opcode} {i : Instr} {rs1 rs2 : RegIdx} {imm : Byte} (hf : o.format = .MP)
    (hi : encode i = layoutMP o rs1 rs2 imm) (z z' : BitVec 4) :
    decode (o.code ++ z ++ BitVec.ofNat 4 rs1 ++ BitVec.ofNat 4 rs2 ++ z' ++ imm) =
      if z = 0#4 ∧ z' = 0#4 then .command i else .illegal .mustBeZero := by
  simp only [ofNat_reg]
  refine decode_eq_ite (o := o) ?op (fun hz => by rw [hz.1, hz.2, hi, layoutMP]) fun h => ?fields
  case op =>
    simp (disch := decide) only [fieldOp, BitVec.extractLsb'_append_eq_of_le, BitVec.extractLsb'_eq_self, Nat.reduceSub]
  case fields =>
    have hz := eq_zero_of_mask (k := 20) (len := 4) h (by decide) (by rw [Opcode.mask, hf]; rfl)
    have hz' := eq_zero_of_mask (k := 8) (len := 4) h (by decide) (by rw [Opcode.mask, hf]; rfl)
    simp (disch := decide) only [BitVec.extractLsb'_append_eq_of_le, BitVec.extractLsb'_append_eq_of_add_le,
      BitVec.extractLsb'_eq_self, Nat.reduceSub] at hz hz'
    exact ⟨hz, hz'⟩

end Sys2Proof

namespace Sys2Proof.Machine

/-! ### Duplicate x values (43_lagrange.md R202) -/

section Duplicates
variable {px : Memory} {n : Nat}

/-- No two of the points share an x value exactly if the x values are one-to-one. -/
theorem not_duplicateX_iff : ¬ DuplicateX px n ↔ Function.Injective fun j : Fin n => px.read j := by
  constructor
  · intro hd j k heq
    by_contra hne
    exact hd ⟨j, k, j.isLt, k.isLt, fun h => hne (Fin.ext h), heq⟩
  · rintro hinj ⟨j, k, hj, hk, hne, heq⟩
    exact hne (congrArg Fin.val (hinj (a₁ := ⟨j, hj⟩) (a₂ := ⟨k, hk⟩) heq))

/-- Points in another order share an x value exactly if they did before. -/
theorem duplicateX_perm_iff {px' : Memory} (p : Equiv.Perm (Fin n)) (hx : ∀ j : Fin n, px'.read j = px.read (p j)) :
    DuplicateX px' n ↔ DuplicateX px n := by
  have hcomp : (fun j : Fin n => px'.read j) = (fun j : Fin n => px.read j) ∘ p := funext hx
  rw [← not_iff_not, not_duplicateX_iff, not_duplicateX_iff, hcomp, p.injective_comp]

theorem gsub_ne_zero_of_not_duplicateX (hd : ¬ DuplicateX px n) {j k : Nat} (hj : j < n) (hk : k < n) (hne : j ≠ k) :
    gsub (px.read k) (px.read j) ≠ 0#8 :=
  fun h => hd ⟨j, k, hj, hk, hne, ((gsub_eq_zero_iff _ _).1 h).symm⟩

theorem hasDuplicate_eq_false (hd : ¬ DuplicateX px n) : hasDuplicate px n = false :=
  Bool.eq_false_iff.2 fun h => hd ((hasDuplicate_iff px n).1 h)

theorem not_duplicateX_of_le_one (hn : n ≤ 1) : ¬ DuplicateX px n := by
  rintro ⟨j, k, hj, hk, hne, -⟩
  omega

end Duplicates

/-! ### glagr and the Lagrange formula (43_lagrange.md R201) -/

section Formula
variable {inv px py : Memory} {n : Nat}

theorem glagr_of_duplicateX (hd : DuplicateX px n) : glagr inv px py n = .error .divByZero := by
  rw [glagr, if_pos ((hasDuplicate_iff px n).2 hd)]

/-- Between points of distinct x every divisor is nonzero, so the entries of a table of inverses give the quotients. -/
theorem lagrangeSum_eq_lagrangeValue (hinv : InverseTable inv) (hd : ¬ DuplicateX px n) :
    lagrangeSum inv px py n = lagrangeValue px py n := by
  refine foldl_range_congr (fun acc j hj => congrArg (gadd acc) ?_) _
  refine foldl_range_congr (fun t k hk => ?_) _
  by_cases hkj : k = j
  · rw [if_neg (not_not.2 hkj), if_neg (not_not.2 hkj)]
  · rw [lagrangeFactor, hinv.read_eq_ginv (gsub_ne_zero_of_not_duplicateX hd hj hk (Ne.symm hkj)), ← gdiv]

theorem glagr_of_not_duplicateX (hd : ¬ DuplicateX px n) : glagr inv px py n = .ok (lagrangeSum inv px py n) := by
  rw [glagr, hasDuplicate_eq_false hd, if_neg Bool.false_ne_true]

theorem glagr_eq_lagrangeValue (hinv : InverseTable inv) (hd : ¬ DuplicateX px n) :
    glagr inv px py n = .ok (lagrangeValue px py n) := by
  rw [glagr_of_not_duplicateX hd, lagrangeSum_eq_lagrangeValue hinv hd]

@[simp] theorem lagrangeValue_zero : lagrangeValue px py 0 = 0#8 := rfl

@[simp] theorem lagrangeValue_one : lagrangeValue px py 1 = py.read 0 := zero_gadd (py.read 0)

end Formula

/-! ### The bytes as the elements of a field (40_field.md R105) -/

/-- `φ` makes the field functions of the model the operations of the field `F`. -/
structure IsFieldEmbedding {F : Type} [Field F] (φ : Byte → F) : Prop where
  injective : Function.Injective φ
  map_zero : φ 0#8 = 0
  map_one : φ 1#8 = 1
  map_gadd : ∀ a b, φ (gadd a b) = φ a + φ b
  map_gsub : ∀ a b, φ (gsub a b) = φ a - φ b
  map_gmul : ∀ a b, φ (gmul a b) = φ a * φ b
  map_gdiv : ∀ a b, φ (gdiv a b) = φ a / φ b

theorem ginv_zero : ginv 0#8 = 0#8 := by decide +kernel

/-- GF(256) on the bytes themselves: each element is its own negative. -/
@[reducible] def byteField : Field Byte :=
  @Field.ofMinimalAxioms Byte ⟨gadd⟩ ⟨gmul⟩ ⟨fun a => a⟩ ⟨ginv⟩ ⟨0#8⟩ ⟨1#8⟩ gadd_assoc zero_gadd (fun _ => BitVec.xor_self)
    gmul_assoc gmul_comm one_gmul gmul_ginv ginv_zero gmul_xor_right ⟨0#8, 1#8, by decide⟩

theorem exists_isFieldEmbedding : ∃ (F : Type) (_ : Field F) (φ : Byte → F), IsFieldEmbedding φ :=
  letI := byteField
  ⟨Byte, byteField, fun a => a, fun _ _ h => h, rfl, rfl, fun _ _ => rfl, fun _ _ => rfl, fun _ _ => rfl, fun _ _ => rfl⟩

/-! ### The interpolating polynomial of the first points (43_lagrange.md R200) -/

section Interpolation
open Polynomial
variable {F : Type} [Field F] (φ : Byte → F) (px py coef : Memory) (n : Nat)

/-- The polynomial of degree below `n` through the first `n` points. -/
noncomputable def interpolant : F[X] :=
  Lagrange.interpolate (Finset.range n) (fun j => φ (px.read j)) (fun j => φ (py.read j))

/-- The polynomial of length `n` whose coefficients are the first `n` entries of COEF (42_polynomial.md R170). -/
noncomputable def coefPoly : F[X] := ∑ i ∈ Finset.range n, C (φ (coef.read i)) * X ^ i

theorem degree_coefPoly_lt : (coefPoly φ coef n).degree < n := by
  rw [coefPoly, Finset.sum_range]
  exact degree_sum_fin_lt _

theorem coefPoly_succ : coefPoly φ coef (n + 1) = coefPoly φ coef n + C (φ (coef.read n)) * X ^ n :=
  Finset.sum_range_succ _ n

/-- One factor of a basis polynomial at 0, with the signs of 43_lagrange.md R201. -/
theorem eval_zero_basisDivisor (a b : F) : (Lagrange.basisDivisor a b).eval 0 = b / (b - a) := by
  rw [Lagrange.basisDivisor, eval_C_mul, eval_sub, eval_X, eval_C, zero_sub, mul_neg, ← neg_mul, ← inv_neg, neg_sub,
    div_eq_inv_mul]

variable {φ px py n} (hφ : IsFieldEmbedding φ)
include hφ

theorem IsFieldEmbedding.map_gpow (g : Byte) (m : Nat) : φ (gpow g m) = φ g ^ m := by
  induction m with
  | zero => rw [gpow, hφ.map_one, pow_zero]
  | succ m ih => rw [gpow, hφ.map_gmul, ih, pow_succ]

/-- geval is evaluation of the polynomial in COEF. -/
theorem IsFieldEmbedding.map_geval (m : Nat) (pt : Byte) : φ (geval coef m pt) = (coefPoly φ coef m).eval (φ pt) := by
  induction m with
  | zero => rw [geval_zero, hφ.map_zero, coefPoly, Finset.range_zero, Finset.sum_empty, eval_zero]
  | succ m ih => rw [geval_succ, hφ.map_gadd, hφ.map_gmul, hφ.map_gpow, ih, coefPoly_succ, eval_add, eval_C_mul, eval_X_pow]

theorem IsFieldEmbedding.map_foldl_gadd (f : Nat → Byte) (m : Nat) :
    φ ((List.range m).foldl (fun acc j => gadd acc (f j)) 0#8) = ∑ j ∈ Finset.range m, φ (f j) := by
  induction m with
  | zero => exact hφ.map_zero
  | succ m ih => rw [List.range_succ, List.foldl_concat, hφ.map_gadd, ih, Finset.sum_range_succ]

/-- The product of a basis term runs over every index but its own. -/
theorem IsFieldEmbedding.map_foldl_gmul (f : Nat → Byte) (j m : Nat) (a : Byte) :
    φ ((List.range m).foldl (fun t k => if k ≠ j then gmul t (f k) else t) a) =
      φ a * ∏ k ∈ (Finset.range m).erase j, φ (f k) := by
  rw [← Finset.filter_ne', Finset.prod_filter]
  induction m with
  | zero => exact (mul_one (φ a)).symm
  | succ m ih =>
    rw [List.range_succ, List.foldl_concat, Finset.prod_range_succ, ← mul_assoc, ← ih]
    split
    · exact hφ.map_gmul _ _
    · exact (mul_one _).symm

/-- The Lagrange formula is the value at 0 of the interpolating polynomial (43_lagrange.md R201). -/
theorem IsFieldEmbedding.map_lagrangeValue : φ (lagrangeValue px py n) = (interpolant φ px py n).eval 0 := by
  rw [lagrangeValue, hφ.map_foldl_gadd, interpolant, Lagrange.interpolate_apply, eval_finsetSum]
  refine Finset.sum_congr rfl fun j _ => ?_
  rw [hφ.map_foldl_gmul, eval_C_mul, Lagrange.basis, eval_prod]
  refine congrArg (φ (py.read j) * ·) (Finset.prod_congr rfl fun k _ => ?_)
  rw [hφ.map_gdiv, hφ.map_gsub, eval_zero_basisDivisor]

theorem IsFieldEmbedding.injOn_x (hd : ¬ DuplicateX px n) :
    Set.InjOn (fun j => φ (px.read j)) (Finset.range n : Set Nat) := by
  intro j hj k hk heq
  by_contra hne
  exact hd ⟨j, k, Finset.mem_range.1 hj, Finset.mem_range.1 hk, hne, hφ.injective heq⟩

theorem IsFieldEmbedding.degree_interpolant_lt (hd : ¬ DuplicateX px n) : (interpolant φ px py n).degree < n := by
  simpa only [Finset.card_range, interpolant] using Lagrange.degree_interpolate_lt (fun j => φ (py.read j)) (hφ.injOn_x hd)

theorem IsFieldEmbedding.eval_interpolant (hd : ¬ DuplicateX px n) {k : Nat} (hk : k < n) :
    (interpolant φ px py n).eval (φ (px.read k)) = φ (py.read k) :=
  Lagrange.eval_interpolate_at_node (fun j => φ (py.read j)) (hφ.injOn_x hd) (Finset.mem_range.2 hk)

/-- Only one polynomial of degree below `n` goes through `n` points of distinct x. -/
theorem IsFieldEmbedding.eq_interpolant (hd : ¬ DuplicateX px n) {f : F[X]} (hdeg : f.degree < n)
    (hf : ∀ k, k < n → f.eval (φ (px.read k)) = φ (py.read k)) : f = interpolant φ px py n :=
  Lagrange.eq_interpolate_of_eval_eq _ (hφ.injOn_x hd) (by rwa [Finset.card_range])
    fun k hk => hf k (Finset.mem_range.1 hk)

end Interpolation

/-! ### What the Lagrange formula gives (43_lagrange.md R203, R210) -/

section Value
variable {px py : Memory} {n : Nat}

/-- At a point of x = 0 the interpolating polynomial has its y. -/
theorem lagrangeValue_of_read_eq_zero (hd : ¬ DuplicateX px n) {k : Nat} (hk : k < n) (h0 : px.read k = 0#8) :
    lagrangeValue px py n = py.read k := by
  obtain ⟨F, _, φ, hφ⟩ := exists_isFieldEmbedding
  apply hφ.injective
  rw [hφ.map_lagrangeValue, ← hφ.eval_interpolant hd hk, h0, hφ.map_zero]

/-- A polynomial no longer than the number of its points is the interpolating one, and COEF[0] is its value at 0. -/
theorem lagrangeValue_of_geval {coef : Memory} {T : Nat} (hT : 1 ≤ T) (hTn : T ≤ n) (hd : ¬ DuplicateX px n)
    (hy : ∀ j, j < n → py.read j = geval coef T (px.read j)) : lagrangeValue px py n = coef.read 0 := by
  obtain ⟨F, _, φ, hφ⟩ := exists_isFieldEmbedding
  have hdeg : (coefPoly φ coef T).degree < n := (degree_coefPoly_lt φ coef T).trans_le (Nat.cast_le.2 hTn)
  have hpoly : coefPoly φ coef T = interpolant φ px py n :=
    hφ.eq_interpolant hd hdeg fun k hk => by rw [hy k hk, hφ.map_geval]
  apply hφ.injective
  rw [hφ.map_lagrangeValue, ← hpoly, ← hφ.map_zero, ← hφ.map_geval, geval_at_zero coef hT]

/-- Points in another order lie on the same interpolating polynomial. -/
theorem lagrangeValue_perm {px' py' : Memory} (hd : ¬ DuplicateX px n) (p : Equiv.Perm (Fin n))
    (h : ∀ j : Fin n, px'.read j = px.read (p j) ∧ py'.read j = py.read (p j)) :
    lagrangeValue px' py' n = lagrangeValue px py n := by
  obtain ⟨F, _, φ, hφ⟩ := exists_isFieldEmbedding
  have hd' : ¬ DuplicateX px' n := (duplicateX_perm_iff p fun j => (h j).1).not.2 hd
  have hpoly : interpolant φ px py n = interpolant φ px' py' n :=
    hφ.eq_interpolant hd' (hφ.degree_interpolant_lt hd) fun k hk => by
      obtain ⟨hx, hy⟩ := h ⟨k, hk⟩
      rw [hx, hy, hφ.eval_interpolant hd (p ⟨k, hk⟩).isLt]
  apply hφ.injective
  rw [hφ.map_lagrangeValue, hφ.map_lagrangeValue, hpoly]

end Value

/-! ### LAGR as one record (43_lagrange.md R209) -/

section Lagr
variable {s : State} {n : Byte} (rd : RegIdx)

theorem exec_lagr_of_duplicateX (hd : DuplicateX s.px n.toNat) : exec (.lagr rd n) s = .next { s with
    inv := s.ensureBuilt.inv, invValid := true, lastErr := 0x1#4, stickyErr := true, active := none } := by
  rw [exec_lagr_duplicate s rd n ((hasDuplicate_iff s.px n.toNat).2 hd), complete_ensureBuilt]
  rfl

theorem exec_lagr_of_not_duplicateX (hs : s.TableSound) (hd : ¬ DuplicateX s.px n.toNat) :
    exec (.lagr rd n) s = .next { s with
      x := s.x.set rd.val (lagrangeValue s.px s.py n.toNat), result := (lagrangeValue s.px s.py n.toNat).setWidth 32,
      inv := s.ensureBuilt.inv, invValid := true, lastErr := 0#4, active := none } := by
  rw [exec_lagr s rd n (hasDuplicate_eq_false hd), lagrangeSum_eq_lagrangeValue hs.inverseTable_ensureBuilt hd,
    complete_writeBack_ensureBuilt]

end Lagr

/-! ### The statements of 43_lagrange.md -/

/-- Settles O31: format P has no must-be-zero field, and no reconstruction has more than 255 points, so none reads entry 255. -/
theorem lpsetStoresAPoint : Obligations.LpsetStoresAPoint := by
  intro idx vx vy s hpx hpy
  have hx := fun a => Memory.read_write idx.toNat a vx hpx
  have hy := fun a => Memory.read_write idx.toNat a vy hpy
  refine ⟨decode_encode (.lpset idx vx vy), _, exec_lpset s idx vx vy, rfl, hx, hy, ?entry255⟩
  case entry255 =>
    rintro rfl inv n
    have hne : ∀ k, k < n.toNat → k ≠ (0xFF#8).toNat := fun k hk => (hk.trans_le (Nat.le_of_lt_succ n.isLt)).ne
    exact glagr_congr (fun k hk => (hx k).trans (if_neg (hne k hk))) fun k hk => (hy k).trans (if_neg (hne k hk))

/-- Settles O32: format MP, and the store of two registers' values. -/
theorem lpstStoresTwoRegisters : Obligations.LpstStoresTwoRegisters := by
  intro idx rs1 rs2 z z' s hpx hpy
  exact ⟨decode_formatMP (o := .lpst) rfl rfl z z', _, exec_lpst s rs1 rs2 idx, rfl,
    fun a => Memory.read_write idx.toNat a (s.reg rs1) hpx, fun a => Memory.read_write idx.toNat a (s.reg rs2) hpy⟩

/-- Settles O33: format L twice, and an empty memory reads 0. -/
theorem pointLoadsReadTheirMemory : Obligations.PointLoadsReadTheirMemory := by
  intro rd idx z s
  refine ⟨decode_formatL (o := .lpldx) rfl rfl z, decode_formatL (o := .lpldy) rfl rfl z, ?x, ?y,
    Memory.read_nil idx.toNat, Memory.read_nil idx.toNat⟩
  case x => rw [exec_lpldx, complete_writeBack]
  case y => rw [exec_lpldy, complete_writeBack]

/-- Settles O34: the table after the build on first need is one of inverses, so the sum LAGR forms is the formula's value. -/
theorem lagrReconstructsOrRaises : Obligations.LagrReconstructsOrRaises := by
  intro rd n z s hs
  refine ⟨decode_formatL (o := .lagr) rfl rfl z, s.ensureBuilt.inv, hs.inverseTable_ensureBuilt,
    State.ensureBuilt_inv_of_valid, exec_lagr_of_duplicateX rd,
    fun hd => ⟨_, rfl, ?none, ?one, exec_lagr_of_not_duplicateX rd hs hd⟩⟩
  case none =>
    rintro rfl
    exact lagrangeValue_zero
  case one =>
    rintro rfl
    exact lagrangeValue_one

/-- Settles O35: the check runs over every pair of points, and the divisors are the differences of their x values. -/
theorem glagrRaisesExactlyOnDuplicates : Obligations.GlagrRaisesExactlyOnDuplicates := by
  intro inv px py n
  refine ⟨⟨fun h => ?raised, glagr_of_duplicateX⟩,
    fun hd => ⟨⟨_, glagr_of_not_duplicateX hd⟩, fun j k => gsub_ne_zero_of_not_duplicateX hd⟩⟩
  case raised =>
    by_contra hd
    rw [glagr_of_not_duplicateX hd] at h
    cases h

/-- Settles O36: no point and one point by the formula, a point at x = 0 by the interpolating polynomial. -/
theorem glagrOnSpecialPointSets : Obligations.GlagrOnSpecialPointSets := by
  intro inv px py hinv
  refine ⟨?none, ?one, fun n k hk hd h0 => ?atZero⟩
  case none => rw [glagr_eq_lagrangeValue hinv (not_duplicateX_of_le_one (Nat.zero_le 1)), lagrangeValue_zero]
  case one => rw [glagr_eq_lagrangeValue hinv (not_duplicateX_of_le_one le_rfl), lagrangeValue_one]
  case atZero => rw [glagr_eq_lagrangeValue hinv hd, lagrangeValue_of_read_eq_zero hd hk h0]

/-- Settles O37: the polynomial in COEF is the interpolating polynomial of its shares. -/
theorem reconstructionGivesTheSecret : Obligations.ReconstructionGivesTheSecret := by
  intro s rd n T hs hT hTn hd hy
  refine ⟨_, exec_lagr_of_not_duplicateX rd hs hd, ?register, ?result, rfl⟩
  case register => rw [lagrangeValue_of_geval hT hTn hd hy]; exact s.reg_setReg_same rd _
  case result => rw [lagrangeValue_of_geval hT hTn hd hy]

/-- Settles O38: another order has the same duplicates and the same interpolating polynomial. -/
theorem reconstructionIgnoresPointOrder : Obligations.ReconstructionIgnoresPointOrder := by
  intro inv px py px' py' n p hinv h
  have hdup := duplicateX_perm_iff p fun j => (h j).1
  by_cases hd : DuplicateX px n
  · rw [glagr_of_duplicateX hd, glagr_of_duplicateX (hdup.2 hd)]
  · rw [glagr_eq_lagrangeValue hinv hd, glagr_eq_lagrangeValue hinv (hdup.not.2 hd), lagrangeValue_perm hd p h]

end Sys2Proof.Machine
end

section
/-! PROOF. The statement of 44_control.md: NOP. -/

namespace Sys2Proof.Machine

/-- A completion with OK clears LAST_ERR, leaves STICKY_ERR as it was and ends the command in progress (60_exceptions.md R305). -/
theorem State.complete_ok (s : State) : s.complete .ok = { s with lastErr := 0#4, active := none } := rfl

/-- Settles O7: format N, and NOP is an OK completion of the state it finds. -/
theorem nopOnlyClearsLastErr : Obligations.NopOnlyClearsLastErr := by
  intro z s
  refine ⟨decode_formatN (o := .nop) rfl rfl z, ?_⟩
  rw [exec_nop, State.complete_ok]

end Sys2Proof.Machine
end

section
/-! PROOF. The statements of 60_exceptions.md: a run never stops, what an illegal word and a DIV_BY_ZERO do, and commands that run
alike whatever the error fields hold. -/

namespace Sys2Proof.Machine

/-! ### Every step answers a next state (60_exceptions.md R300, 70_reset_and_hazards.md R408) -/

section Total
variable (s : State)

theorem exists_runCommand_next : ∃ t, runCommand s = .next t := (runCommand_next s).imp fun _ h => h.1

theorem exists_advance_next (p : Progress) : ∃ t, advance p s = .next t := by
  cases p with
  | buildStarts => exact ⟨s.startBuild, rfl⟩
  | buildEnds => exact ⟨s.endBuild, rfl⟩
  | completes => exact exists_runCommand_next s

theorem exists_receive_next (a : HostAccess) (rest : List Input) : ∃ t, receive a rest s = .next t := by
  unfold receive
  split
  · split
    · exact exists_runCommand_next s
    · exact ⟨_, rfl⟩
  · exact ⟨_, rfl⟩

theorem exists_step_next : ∃ t, step s = .next t := by
  by_cases hc : s.busy = true ∨ s.held = none
  · rw [step_inputs s hc]
    split
    · exact exists_runCommand_next s
    · exact exists_advance_next _ _
    · exact ⟨_, rfl⟩
    · exact exists_receive_next s _ _
  · obtain ⟨hb, hh⟩ := not_or.1 hc
    obtain ⟨a, ha⟩ := Option.ne_none_iff_exists'.1 hh
    exact ⟨_, step_held s ha (Bool.eq_false_iff.2 hb)⟩

end Total

/-- What holds of a state and is kept by every step holds of every state a run passes through. -/
theorem Reachable.invariant {P : State → Prop} {s t : State} (hr : Reachable s t) (hs : P s)
    (hstep : ∀ t u, P t → Machine.step t = .next u → P u) : P t := by
  induction hr with
  | start => exact hs
  | step _ h ih => exact hstep _ _ ih h

/-! ### The commands that raise DIV_BY_ZERO (60_exceptions.md R301) -/

section DivByZero
variable {s t : State} {i : Instr}

/-- Only commands inside which the table is built can divide by zero. -/
theorem needsTable_of_dividesByZero (h : DividesByZero s i) : needsTable i.opcode = true := by
  cases i with
  | gdiv | ginv | lagr => rfl
  | _ => exact h.elim

/-- Only commands with a destination can divide by zero. -/
theorem not_dividesByZero_of_no_dest (hd : destReg i = none) : ¬ DividesByZero s i := by
  cases i with
  | gdiv | ginv | lagr => cases hd
  | _ => exact id

theorem CommandWrites.lastErr_eq_divByZero_iff (h : CommandWrites s i t) : t.lastErr = 0x1#4 ↔ DividesByZero s i := by
  have hok : (0x0#4 : BitVec 4) ≠ 0x1#4 := by decide
  cases h with
  | divByZero hz => exact iff_of_true rfl hz
  | register v _ hz => exact iff_of_false hok hz
  | nothing hd | coef v hd | point vx vy hd => exact iff_of_false hok (not_dividesByZero_of_no_dest hd)

/-- A command that divides by zero leaves its build and the error fields, and nothing more. -/
theorem CommandWrites.eq_of_dividesByZero (h : CommandWrites s i t) (hz : DividesByZero s i) :
    t = { s with inv := t.inv, invValid := true, lastErr := 0x1#4, stickyErr := true, active := none } := by
  cases h with
  | divByZero =>
    rw [State.builtFor, if_pos (needsTable_of_dividesByZero hz), complete_ensureBuilt]
    rfl
  | register v _ hn => exact absurd hz hn
  | nothing hd | coef v hd | point vx vy hd => exact absurd hz (not_dividesByZero_of_no_dest hd)

end DivByZero

/-! ### Commands and the error fields (60_exceptions.md R300, R305) -/

/-- `s` with other error fields. -/
def State.withErrors (s : State) (e : BitVec 4) (k : Bool) : State := { s with lastErr := e, stickyErr := k }

section WithErrors
variable (s : State) (e : BitVec 4) (k : Bool)

@[simp] theorem withErrors_px : (s.withErrors e k).px = s.px := rfl
@[simp] theorem withErrors_py : (s.withErrors e k).py = s.py := rfl
@[simp] theorem withErrors_inv : (s.withErrors e k).inv = s.inv := rfl
@[simp] theorem withErrors_reg (r : RegIdx) : (s.withErrors e k).reg r = s.reg r := rfl
@[simp] theorem withErrors_inverse (a : Byte) : (s.withErrors e k).inverse a = s.inverse a := rfl
@[simp] theorem writeBack_withErrors (rd : RegIdx) (v : Byte) :
    (s.withErrors e k).writeBack rd v = (s.writeBack rd v).withErrors e k := rfl

@[simp] theorem ensureBuilt_withErrors : (s.withErrors e k).ensureBuilt = s.ensureBuilt.withErrors e k :=
  (apply_ite (fun u : State => u.withErrors e k) (s.invValid = true) s s.build).symm

/-- A completion overwrites LAST_ERR, and STICKY_ERR too unless it is with OK (60_exceptions.md R305). -/
theorem complete_withErrors (c : ErrorCode) : (s.withErrors e k).complete c =
    { s.complete c with stickyErr := if (s.complete c).lastErr = 0#4 then k else true } := by
  cases c <;> rfl

/-- A command completes the same staged writes with the same code, whatever the error fields hold. -/
theorem exec_withErrors (i : Instr) : ∃ (u : State) (c : ErrorCode), exec i s = .next (u.complete c) ∧
    exec i (s.withErrors e k) = .next ((u.withErrors e k).complete c) := by
  cases i with
  | invb => exact ⟨_, _, exec_invb s, by rw [exec_invb, ensureBuilt_withErrors]⟩
  | gdiv rd rs1 rs2 =>
    by_cases hz : s.reg rs2 = 0#8
    · exact ⟨_, _, exec_gdiv_zero s rd rs1 rs2 hz, by simp [exec_gdiv_zero, hz]⟩
    · exact ⟨_, _, exec_gdiv s rd rs1 rs2 hz, by simp [exec_gdiv (s.withErrors e k) rd rs1 rs2 hz]⟩
  | ginv rd rs1 =>
    by_cases hz : s.reg rs1 = 0#8
    · exact ⟨_, _, exec_ginv_zero s rd rs1 hz, by simp [exec_ginv_zero, hz]⟩
    · exact ⟨_, _, exec_ginv s rd rs1 hz, by simp [exec_ginv (s.withErrors e k) rd rs1 hz]⟩
  | lagr rd n =>
    cases hz : hasDuplicate s.px n.toNat with
    | true => exact ⟨_, _, exec_lagr_duplicate s rd n hz, by simp [exec_lagr_duplicate, hz]⟩
    | false => exact ⟨_, _, exec_lagr s rd n hz, by simp [exec_lagr, hz]⟩
  | _ => exact ⟨_, _, rfl, rfl⟩

end WithErrors

/-! ### Illegal words (60_exceptions.md R302) -/

theorem buildsTable_of_illegal {w : Word} {r : IllegalReason} (h : decode w = .illegal r) : buildsTable w = false := by
  simp [buildsTable, h]

/-! ### The statements of 60_exceptions.md -/

/-- Settles O60: every step keeps the invariant, and every state has a next. -/
theorem soundStatesRunSafely : Obligations.SoundStatesRunSafely :=
  fun _ hs t hr => ⟨hr.invariant hs stepKeepsSound, exists_step_next t⟩

/-- Settles O40: of what a command can complete with, only the error has that code, and it comes with that condition. -/
theorem divByZeroIsRaisedExactlyThen : Obligations.DivByZeroIsRaisedExactlyThen := by
  intro i s
  obtain ⟨t, ht, hw⟩ := exec_writes s i
  have hiff := hw.lastErr_eq_divByZero_iff
  exact ⟨t, ht, hiff, fun herr => hw.eq_of_dividesByZero (hiff.1 herr)⟩

/-- Settles O42: the two runs complete the same staged writes, and a completion overwrites the error fields. -/
theorem errorsAreNotFatal : Obligations.ErrorsAreNotFatal := by
  intro i s e k
  obtain ⟨u, c, hu, hue⟩ := exec_withErrors s e k i
  exact ⟨_, hu, hue.trans (congrArg _ (complete_withErrors u e k c))⟩

/-- Settles O39: an illegal word is completed with its code, and is no word that builds the table. -/
theorem illegalWordOnlyRaises : Obligations.IllegalWordOnlyRaises := by
  intro s c r ha hd
  refine ⟨runCommand_illegal s ha hd, ?build⟩
  case build => rw [startBuild_busy s ha, buildsTable_of_illegal hd, Bool.false_and, if_neg Bool.false_ne_true]

end Sys2Proof.Machine
end

section
/-! PROOF. The statements of 70_reset_and_hazards.md: the two resets, the accesses that wait for the command in progress and those
that do not, and that every command completes. -/

namespace Sys2Proof.Machine

/-! ### What the port holds and what is still to happen -/

section Port
variable (s : State)

@[simp] theorem startBuild_held : s.startBuild.held = s.held := by
  unfold State.startBuild
  split
  · rfl
  · split <;> rfl

@[simp] theorem startBuild_inputs : s.startBuild.inputs = s.inputs := by
  unfold State.startBuild
  split
  · rfl
  · split <;> rfl

@[simp] theorem endBuild_held : s.endBuild.held = s.held := by unfold State.endBuild; split <;> rfl

@[simp] theorem endBuild_inputs : s.endBuild.inputs = s.inputs := by unfold State.endBuild; split <;> rfl

@[simp] theorem perform_held (a : HostAccess) : (s.perform a).held = s.held := by
  obtain ⟨r, h | ⟨w, _, _, h⟩ | h | h⟩ := perform_cases s a <;> rw [h] <;> rfl

@[simp] theorem perform_inputs (a : HostAccess) : (s.perform a).inputs = s.inputs := by
  obtain ⟨r, h | ⟨w, _, _, h⟩ | h | h⟩ := perform_cases s a <;> rw [h] <;> rfl

end Port

/-! ### The steps of an idle block -/

section Idle
variable {s : State} {rest : List Input}

/-- An idle block that holds a CMD write accepts its word (70_reset_and_hazards.md R405). -/
theorem step_held_cmdWrite {w : Word} (hb : s.busy = false) (hh : s.held = some (cmdWrite w)) :
    step s = .next (({ s with held := none }.accept w).answer .written) := by
  rw [step_held s hh hb, perform_cmdWrite]

/-- An idle block that holds a RESULT read answers it (70_reset_and_hazards.md R406). -/
theorem step_held_resultRead (hb : s.busy = false) (hh : s.held = some resultRead) :
    step s = .next ({ s with held := none }.answer (.data s.result)) := by
  rw [step_held s hh hb, perform_resultRead]

/-- A CMD write that finds BUSY = 0 and nothing held is accepted at once (20_memory.md R58). -/
theorem step_cmdWrite {w : Word} (hb : s.busy = false) (hh : s.held = none) (hi : s.inputs = .access (cmdWrite w) :: rest) :
    step s = .next (({ s with inputs := rest }.accept w).answer .written) := by
  rw [step_perform (.inr ⟨hb, hh⟩) hi, perform_cmdWrite]

end Idle

/-! ### The steps of a busy block -/

/-- A step of a busy block ends the command in progress, or takes the next input and leaves held what was held: only an idle
block performs a held access. -/
theorem step_busy {s t : State} (hb : s.busy = true) (h : step s = .next t) :
    t.busy = false ∨ ((∃ i, s.inputs = i :: t.inputs) ∧ ∀ a, s.held = some a → t.held = some a) := by
  obtain ⟨_, _, hidle, _⟩ | ⟨_, ⟨rest, _, hr⟩ | ⟨rest, hi, rfl⟩ | ⟨rest, hi, rfl⟩ | ⟨rest, _, rfl⟩ |
    ⟨a, rest, hi, _, _, hh, rfl⟩ | ⟨a, rest, hi, _, rfl⟩⟩ := step_cases s h
  · exact absurd hb (by simp [hidle])
  · obtain ⟨u, hu, hidle, _⟩ := runCommand_next { s with inputs := rest }
    cases hu.symm.trans hr
    exact .inl ((State.busy_eq_false_iff t).2 hidle)
  · exact .inr ⟨⟨_, by simpa using hi⟩, by simp⟩
  · exact .inr ⟨⟨_, by simpa using hi⟩, by simp⟩
  · exact .inl rfl
  · exact .inr ⟨⟨_, hi⟩, by simp [hh]⟩
  · exact .inr ⟨⟨_, by simpa using hi⟩, by simp⟩

/-- A command is over after at most one step more than there are inputs: each step before takes one of them
(70_reset_and_hazards.md R408). -/
theorem exists_run_idle (is : List Input) (s : State) (hi : s.inputs = is) :
    ∃ k t, k ≤ is.length + 1 ∧ Host.Core.run Sys2Proof.core k s = .next t ∧ t.busy = false := by
  induction is generalizing s with
  | nil =>
    cases hb : s.busy with
    | false => exact ⟨0, s, Nat.zero_le _, rfl, hb⟩
    | true =>
      obtain ⟨t, ht⟩ := exists_step_next s
      have hidle : t.busy = false := (step_busy hb ht).resolve_right (by simp [hi])
      exact ⟨1, t, Nat.le_refl _, run_succ_of_step ht 0, hidle⟩
  | cons i is ih =>
    cases hb : s.busy with
    | false => exact ⟨0, s, Nat.zero_le _, rfl, hb⟩
    | true =>
      obtain ⟨t, ht⟩ := exists_step_next s
      obtain hidle | ⟨⟨_, hcons⟩, _⟩ := step_busy hb ht
      · exact ⟨1, t, by simp, run_succ_of_step ht 0, hidle⟩
      · obtain ⟨k, u, hk, hrun, hu⟩ := ih t (List.cons.inj (hcons.symm.trans hi)).2
        exact ⟨k + 1, u, Nat.succ_le_succ hk, (run_succ_of_step ht k).trans hrun, hu⟩

/-! ### A command and a read of its result (70_reset_and_hazards.md R406) -/

/-- `s` with the command `w` accepted, a RESULT read held, and the completion next. -/
def State.waitingForResult (s : State) (w : Word) (rest : List Input) : State :=
  (s.accept w).withPort (some resultRead) (.progress .completes :: rest) (s.replies ++ [.written])

section Result
variable {s : State} {w : Word} {rest : List Input}

/-- The first two steps accept the word and hold the read. -/
theorem run_add_two_waitingForResult (hb : s.busy = false) (hh : s.held = none)
    (hi : s.inputs = .access (cmdWrite w) :: .access resultRead :: .progress .completes :: rest) (k : Nat) :
    Host.Core.run Sys2Proof.core (k + 2) s = Host.Core.run Sys2Proof.core k (s.waitingForResult w rest) := by
  have haccept := step_cmdWrite hb hh hi
  have hhold := step_hold (s := ({ s with inputs := .access resultRead :: .progress .completes :: rest }.accept w).answer .written)
    rfl hh resultRead_heldByBusy rfl
  rw [run_succ_of_step haccept, run_succ_of_step hhold]
  rfl

/-- The next two steps complete the command and answer the read with RESULT as the command left it. -/
theorem run_two_of_waitingForResult (hh : s.held = none) :
    Host.Core.run Sys2Proof.core 2 (s.waitingForResult w rest) = .next { afterCommand s w with
      inputs := rest, replies := s.replies ++ [.written, .data (afterCommand s w).result] } := by
  obtain ⟨hactive, hheld, _⟩ := afterCommand_port s w
  have hdone : step (s.waitingForResult w rest) =
      .next ((afterCommand s w).withPort (some resultRead) rest (s.replies ++ [.written])) :=
    (step_progress (p := .completes) (rest := rest) (.inl rfl) rfl).trans (runCommand_accept_withPort s w _ rest _)
  have hanswer := step_held_resultRead (s := (afterCommand s w).withPort (some resultRead) rest (s.replies ++ [.written]))
    ((State.busy_eq_false_iff _).2 hactive) rfl
  rw [run_succ_of_step hdone, run_succ_of_step hanswer]
  simp [Host.Core.run, State.answer, State.withPort, hheld, hh]

end Result

/-! ### The statements of 70_reset_and_hazards.md -/

/-- Settles O53: a step always answers, and a busy block has only so many inputs to take. -/
theorem everyCommandCompletes : Obligations.EveryCommandCompletes :=
  ⟨exists_step_next, fun s => exists_run_idle s.inputs s rfl⟩

/-- Settles O45: the write resets the block whatever it is doing, and the reset leaves an idle block that performs what it
holds. -/
theorem softResetAbandonsTheCommand : Obligations.SoftResetAbandonsTheCommand := by
  intro s v rest hc hv hi
  have hstep : step s = .next ({ s with inputs := rest }.softReset.answer .written) := by
    rw [step_ctrlWrite hc hi, State.writeCtrl, if_pos hv]
  exact ⟨_, hstep, rfl, fun _ hh => step_held_cmdWrite rfl hh, fun hh => step_held_resultRead rfl hh⟩

/-- Settles O50: where a CMD write is held, kept, made to wait and accepted. -/
theorem commandWritesAreHeldWhileBusy : Obligations.CommandWritesAreHeldWhileBusy := by
  refine ⟨?hold, ?keep, ?wait, ?acceptHeld, ?acceptNow⟩
  case hold => exact fun s w rest hb hh hi => step_hold hb hh (cmdWrite_heldByBusy w) hi
  case keep =>
    intro s t a hb hh h ht
    obtain ⟨_, hkeep⟩ := (step_busy hb h).resolve_left (by simp [ht])
    exact hkeep a hh
  case wait =>
    intro s a w rest hb hh hi
    obtain ⟨t, ht, _, hheld, hinputs, _⟩ := runCommand_next s
    exact ⟨t, (step_wait hb (by simp [hh]) (cmdWrite_heldByBusy w) hi).trans ht, hinputs, hheld⟩
  case acceptHeld => exact fun s w hb hh => step_held_cmdWrite hb hh
  case acceptNow => exact fun s w rest hb hh hi => step_cmdWrite hb hh hi

/-- Settles O51: a command and the RESULT read after it take four steps, two to reach the held read and two to answer it. -/
theorem resultReadWaitsForTheCommand : Obligations.ResultReadWaitsForTheCommand := by
  refine ⟨?hold, ?answer, ?run⟩
  case hold => exact fun s rest hb hh hi => step_hold hb hh resultRead_heldByBusy hi
  case answer => exact fun s hb hh => step_held_resultRead hb hh
  case run =>
    intro s w rest hb hh hi
    have htwo := run_add_two_waitingForResult hb hh hi
    refine ⟨s.waitingForResult w rest, htwo 0, rfl, rfl, rfl, ?_⟩
    rw [htwo 2, run_two_of_waitingForResult hh]

/-- Settles O44: the three resets give the same values to all that is not the port's. -/
theorem resetsLeaveTheResetState : Obligations.ResetsLeaveTheResetState := by
  refine ⟨?values, ?step⟩
  case values =>
    intro s t ht
    obtain rfl | rfl | rfl := ht
    all_goals exact ⟨State.reg_reset, Memory.read_nil, Memory.read_nil, Memory.read_nil, rfl, rfl, rfl, rfl, rfl, rfl⟩
  case step =>
    intro s rest hc hi
    have hstep : step s = .next { s with inputs := rest }.powerOn := by rw [step_inputs s hc, hi]
    exact ⟨_, hstep, rfl⟩

/-- Settles O52: the answer is STATUS, whose fields are those of the busy block. -/
theorem statusReadsAreNeverHeld : Obligations.StatusReadsAreNeverHeld := by
  intro s rest hb hi
  obtain ⟨hbusy, hvalid, hbuilding, hsticky, _, herr, _⟩ := statusHoldsItsFields s
  have hstep := step_perform_of_not_heldByBusy statusRead_heldByBusy (.inl hb) hi
  exact ⟨s.status, hstep, hbusy.trans hb, hvalid, hbuilding, hsticky, herr⟩

/-- Settles O58. -/
theorem resetIsSound : Obligations.ResetIsSound := sound_reset

end Sys2Proof.Machine
end
